-- ==== Sys2Proof/Word.lean ====
section
/-!
DEFINITION. The word types of the engine (00_scope.md R9): a byte of a stream or buffer is 8 bits, an operand
word of the CCD and the RLD's extended count are 16 bits, the cursors and sizes are 32 bits (SIZE_BITS).
-/

namespace Sys2Proof

/-- One byte of IN or OUT; an output byte is a palette index 0 to 255 (R9, R42). -/
abbrev Byte := BitVec 8

/-- A 16-bit operand word, and the width of COMP_TYPE (R9, R31). -/
abbrev Half := BitVec 16

/-- A register of SIZE_BITS = 32 bits (R9): IN_LEN, TARGET_SIZE, IN_POS, WRITE_POS. -/
abbrev Word := BitVec 32

end Sys2Proof
end

