-- ==== Sys2Proof/Syntax.lean ====
section
/-!
DEFINITION. The commands of the two compressed formats, the spec's "instructions" (30_encoding.md R70, R71): one
constructor per row of opcode_table.json.
-/

namespace Sys2Proof

/-- The DECODER register's values (10_state.md R29): 0 none, 1 COPY_CODE, 2 RUN_LENGTH; 3 never occurs. -/
inductive Decoder where
  | none
  | copyCode
  | runLength
  deriving DecidableEq, Repr

/-- A command with its operands. The literal bytes of LIT and RLIT are data of the stream that the command copies
(R51, R70; the source's variants are LiteralRun and RleOp's LiteralRun(len)), so they are not operands. Log 8. -/
inductive Instr where
  /-- REL, the addressing-mode prefix (R79). -/
  | rel
  /-- SBR count, dist: ShortBackref (R74). -/
  | sbr (count : Nat) (dist : BitVec 12)
  /-- LIT: LiteralRun of `count` bytes (R75). -/
  | lit (count : Nat)
  /-- END: the end-of-stream marker (R75 with c = 0). -/
  | endMark
  /-- MCP count, dat: MediumCopy (R76). -/
  | mcp (count : Nat) (dat : Half)
  /-- FILL n, v: FillRun (R77). -/
  | fill (n : Half) (v : Byte)
  /-- VCP n, dat: VeryLargeCopy (R78). -/
  | vcp (n : Half) (dat : Half)
  /-- RLIT: the RLD's LiteralRun of `count` bytes (R81). -/
  | rlit (count : Nat)
  /-- RREP n, v: RepeatRun (R82). -/
  | rrep (n : Nat) (v : Byte)
  /-- RXT n, v: ExtendedRun (R83). -/
  | rxt (n : Half) (v : Byte)
  deriving DecidableEq, Repr

/-- The decoder whose format a command belongs to (R71). -/
def Instr.decoder : Instr → Decoder
  | .rel | .sbr _ _ | .lit _ | .endMark | .mcp _ _ | .fill _ _ | .vcp _ _ => .copyCode
  | .rlit _ | .rrep _ _ | .rxt _ _ => .runLength

/-- How many literal bytes follow a command's opcode and operand bytes (R75, R81). -/
def Instr.literals : Instr → Nat
  | .lit count => count
  | .rlit count => count
  | .rel | .sbr _ _ | .endMark | .mcp _ _ | .fill _ _ | .vcp _ _ | .rrep _ _ | .rxt _ _ => 0

end Sys2Proof
end

