-- ==== Sys2Proof/WellFormed.lean ====
section
/-!
DEFINITION. The operand ranges of 30_encoding.md R86: what an encoding can hold. Operands whose range is that of
their type (dist, dat, n of 16 bits, v) need no check.
-/

namespace Sys2Proof

/-- The operands of a command are in the ranges of R86. -/
def Instr.wellFormed : Instr → Bool
  | .rel => true
  | .sbr count _ => 3 ≤ count && count ≤ 10
  | .lit count => 1 ≤ count && count ≤ 63
  | .endMark => true
  | .mcp count _ => 3 ≤ count && count ≤ 64
  | .fill _ _ => true
  | .vcp _ _ => true
  | .rlit count => 1 ≤ count && count ≤ 127
  | .rrep n _ => 1 ≤ n && n ≤ 128
  | .rxt _ _ => true

end Sys2Proof
end

