-- ==== Sys2Proof/Decode.lean ====
section
/-!
DEFINITION. The decoder of both formats (30_encoding.md R70 to R85), total on any bytes and rejecting by name; the
encoder written from R86; the assembler of R86; and the reading of an opcode-table word that the host asks for.
-/

namespace Sys2Proof

/-- Why a sequence of bytes is not a command. -/
inductive Reject where
  /-- There is no byte. -/
  | empty
  /-- The opcode or control byte is there and an operand byte is missing (R183). -/
  | truncated
  /-- DECODER = 0 selects no decoder (R29). -/
  | noDecoder
  deriving DecidableEq, Repr

/-- The 16-bit little-endian word of two stream bytes in order (R11, R53). -/
def wordLE (first second : Byte) : Half := second ++ first

/-- The 16-bit big-endian word of two stream bytes in order (R11, R54). -/
def wordBE (first second : Byte) : Half := first ++ second

/-- op[5:0] (R75, R76), as a number. -/
def lowSix (op : Byte) : Nat := (op.extractLsb' 0 6).toNat

/-- SBR's count, op[6:4] + 3 (R74). -/
def sbrCount (op : Byte) : Nat := (op.extractLsb' 4 3).toNat + 3

/-- SBR's 12-bit distance, (op[3:0] << 8) | B (R74). -/
def sbrDist (op b : Byte) : BitVec 12 := op.extractLsb' 0 4 ++ b

/-- RREP's run length, -sext_8(k) as a mathematical negation (R82). -/
def rrepCount (k : Byte) : Nat := (-k.toInt).toNat

/-- The CCD's commands (R72 to R79). `index` is the command's position in IN: at index 0 of a CCD job the byte 0x00
is REL and not an opcode (R73, R84). Log 7. -/
def decodeCopyCode (index : Nat) : List Byte → Except Reject (Instr × List Byte)
  | [] => .error .empty
  | op :: rest =>
    if index = 0 ∧ op = 0x00#8 then .ok (.rel, rest)
    else if op.getLsbD 7 = false then
      match rest with
      | b :: rest => .ok (.sbr (sbrCount op) (sbrDist op b), rest)
      | _ => .error .truncated
    else if op.getLsbD 6 = false then
      if lowSix op = 0 then .ok (.endMark, rest) else .ok (.lit (lowSix op), rest)
    else if lowSix op < 0x3E then
      match rest with
      | lo :: hi :: rest => .ok (.mcp (lowSix op + 3) (wordLE lo hi), rest)
      | _ => .error .truncated
    else if lowSix op = 0x3E then
      match rest with
      | lo :: hi :: v :: rest => .ok (.fill (wordLE lo hi) v, rest)
      | _ => .error .truncated
    else
      match rest with
      | nlo :: nhi :: dlo :: dhi :: rest => .ok (.vcp (wordLE nlo nhi) (wordLE dlo dhi), rest)
      | _ => .error .truncated

/-- The RLD's commands, by the sign of the control byte (R80 to R83). -/
def decodeRunLength : List Byte → Except Reject (Instr × List Byte)
  | [] => .error .empty
  | k :: rest =>
    if 0 < k.toInt then .ok (.rlit k.toInt.toNat, rest)
    else if k.toInt < 0 then
      match rest with
      | v :: rest => .ok (.rrep (rrepCount k) v, rest)
      | _ => .error .truncated
    else
      match rest with
      | hi :: lo :: v :: rest => .ok (.rxt (wordBE hi lo) v, rest)
      | _ => .error .truncated

/-- The command at the head of `bytes`, at position `index` of IN, under the selected decoder, with the bytes after
its opcode and operands. -/
def decode (d : Decoder) (index : Nat) (bytes : List Byte) : Except Reject (Instr × List Byte) :=
  match d with
  | .none => .error .noDecoder
  | .copyCode => decodeCopyCode index bytes
  | .runLength => decodeRunLength bytes

/-- How many bytes a command's opcode and operands take (R71), literal bytes apart. -/
def Instr.size : Instr → Nat
  | .rel => 1
  | .sbr _ _ => 2
  | .lit _ => 1
  | .endMark => 1
  | .mcp _ _ => 3
  | .fill _ _ => 4
  | .vcp _ _ => 5
  | .rlit _ => 1
  | .rrep _ _ => 2
  | .rxt _ _ => 4

/-- The length of a command read in full (R71). -/
def Instr.fullLength (i : Instr) : Nat := i.size + i.literals

/-- The largest `Instr.size`: VCP's (R78). -/
def longestOperands : Nat := 5

/-- A byte from a number, as R86 writes the encodings. -/
def toByte (n : Nat) : Byte := BitVec.ofNat 8 n

/-- The opcode and operand bytes of a command: the column "encodes to" of R86. -/
def encode : Instr → List Byte
  | .rel => [0x00#8]
  | .sbr count dist => [toByte ((count - 3) * 16 + dist.toNat / 256), toByte (dist.toNat % 256)]
  | .lit count => [toByte (0x80 + count)]
  | .endMark => [0x80#8]
  | .mcp count dat => [toByte (0xC0 + (count - 3)), toByte (dat.toNat % 256), toByte (dat.toNat / 256)]
  | .fill n v => [0xFE#8, toByte (n.toNat % 256), toByte (n.toNat / 256), v]
  | .vcp n dat =>
    [0xFF#8, toByte (n.toNat % 256), toByte (n.toNat / 256), toByte (dat.toNat % 256), toByte (dat.toNat / 256)]
  | .rlit count => [toByte count]
  | .rrep n v => [toByte ((256 - n) % 256), v]
  | .rxt n v => [0x00#8, toByte (n.toNat / 256), toByte (n.toNat % 256), v]

/-- A command can stand at position `index` of IN and be read as itself: REL only at index 0, and no other CCD
command whose first byte is 0x00 at index 0 (R73, R86). -/
def Instr.placeable (index : Nat) (i : Instr) : Bool :=
  if i = .rel then index = 0
  else !(index = 0 && i.decoder = .copyCode && (encode i).head? = some 0x00#8)

/-! ### The assembler of R86 -/

/-- One line of assembly (R86): a command with its literal bytes, or raw bytes (`.db`). Log 12. -/
inductive Line where
  | cmd (i : Instr) (literals : List Byte)
  | db (bytes : List Byte)
  deriving DecidableEq, Repr

/-- What an assembler refuses (R86). -/
inductive AsmError where
  /-- An operand outside its range, or a count of literals that is not the command's. -/
  | operandOutOfRange
  /-- A command of the other decoder's format. -/
  | otherDecoder
  /-- A REL line anywhere but first. -/
  | relNotFirst
  /-- A CCD stream without REL whose first command encodes to 0x00. -/
  | readsAsRel
  deriving DecidableEq, Repr

/-- The bytes of one line at position `index` of the stream. -/
def Line.assemble (d : Decoder) (index : Nat) : Line → Except AsmError (List Byte)
  | .db bytes => if bytes = [] then .error .operandOutOfRange else .ok bytes
  | .cmd i literals =>
    if !i.wellFormed || literals.length ≠ i.literals then .error .operandOutOfRange
    else if i.decoder ≠ d then .error .otherDecoder
    else if i = .rel ∧ index ≠ 0 then .error .relNotFirst
    else if !i.placeable index then .error .readsAsRel
    else .ok (encode i ++ literals)

/-- The stream of a program that begins at position `index`. -/
def assembleFrom (d : Decoder) (index : Nat) : List Line → Except AsmError (List Byte)
  | [] => .ok []
  | l :: p =>
    match l.assemble d index with
    | .error e => .error e
    | .ok bytes =>
      match assembleFrom d (index + bytes.length) p with
      | .error e => .error e
      | .ok more => .ok (bytes ++ more)

/-- The stream of a program (R86). -/
def assemble (d : Decoder) (p : List Line) : Except AsmError (List Byte) := assembleFrom d 0 p

/-! ### Words of the opcode table -/

/-- The length in bytes of the longest command, RLIT of 127 bytes (R71). -/
def longestCommand : Nat := 128

/-- `count` bytes of a number, least significant first. -/
def bytesOfNat : (count : Nat) → Nat → List Byte
  | 0, _ => []
  | count + 1, w => toByte (w % 256) :: bytesOfNat count (w / 256)

/-- The bytes of an opcode-table word in stream order: bit 0 is the least significant bit of the first byte, every bit
from `nbits` on is 0. -/
def tableBytes (nbits w : Nat) : List Byte := bytesOfNat longestCommand (w % 2 ^ nbits)

/-- The decoder that reads an opcode-table word. The two decoders share the byte values, and the word does not say
which one is meant; the table's rows of the word's width do: RLIT is the 8-bit row of 0x01 to 0x7F, RREP the 16-bit
row of 0x80 to 0xFF, RXT the 32-bit row of 0x00; every other word is the CCD's. Log 13. -/
def tableDecoder (nbits w : Nat) : Decoder :=
  let first := w % 2 ^ nbits % 256
  if nbits = 8 ∧ 0x01 ≤ first ∧ first ≤ 0x7F then .runLength
  else if nbits = 16 ∧ 0x80 ≤ first then .runLength
  else if nbits = 32 ∧ first = 0x00 then .runLength
  else .copyCode

/-- Where an opcode-table word stands in IN: at index 0, but for an SBR whose opcode is 0x00, which at index 0 would be
REL (R73). Log 13. -/
def tableIndex (nbits w : Nat) : Nat :=
  if tableDecoder nbits w = .copyCode ∧ nbits ≠ 8 ∧ w % 2 ^ nbits % 256 = 0 then 1 else 0

/-- The instruction the decoder reads from an opcode-table word. -/
def decodeTableWord (nbits w : Nat) : Option Instr :=
  match decode (tableDecoder nbits w) (tableIndex nbits w) (tableBytes nbits w) with
  | .ok (i, _) => some i
  | .error _ => none

end Sys2Proof
end

