-- ==== Sys2Proof/Config.lean ====
section
/-!
DEFINITION. What an implementation fixes and the spec leaves OPEN (00_scope.md R9), and the free values. Each is a
constant with NO body: nothing can be proved of its value, so a claim holds for every value.
-/

namespace Sys2Proof

/-- What compressionTypeMap sends a 16-bit code to (R9). -/
inductive Kind where
  | copyCode
  | runLength
  | unsupported
  deriving DecidableEq, Repr

/-- The one compression-type code of COPY_CODE (R9, I-9): OPEN. Log 2. -/
opaque Config.copyCodeCode : Half

/-- Where the one code of RUN_LENGTH is looked for (R9): OPEN, see `Config.runLengthCode`. Log 2. -/
opaque Config.runLengthChoice : Half

/-- The one compression-type code of RUN_LENGTH (R9). Any code but that of COPY_CODE: every map R9 allows is one of
these, for some pair of the two constants. Log 2. -/
def Config.runLengthCode : Half :=
  if Config.runLengthChoice = Config.copyCodeCode then Config.copyCodeCode + 1 else Config.runLengthChoice

/-- compressionTypeMap (R9, R31): exactly one code for each decoder, every other code UNSUPPORTED. Log 2. -/
def Config.compressionTypeMap (code : Half) : Kind :=
  if code = Config.copyCodeCode then .copyCode
  else if code = Config.runLengthCode then .runLength
  else .unsupported

/-- IN_CAPACITY: the largest IN_LEN the engine accepts (R9): OPEN. Log 2. -/
opaque Config.inCapacity : Word

/-- OUT_CAPACITY: the largest TARGET_SIZE the engine accepts (R9): OPEN. Log 2. -/
opaque Config.outCapacity : Word

/-- How many engines there are beside the first (R9: N_ENGINES is OPEN, at least 1). Log 15. -/
opaque Config.furtherEngines : Nat

/-- N_ENGINES (R9). -/
def Config.engineCount : Nat := Config.furtherEngines + 1

/-- FREE VALUE: what an engine's IN holds at an index the host has not written since the given reset (R41, I-6:
unspecified), for each engine apart (R67). Logs 4, 15. -/
opaque Config.unwrittenIn : (engine : Nat) → (resets : Nat) → (index : Nat) → Byte

/-- FREE VALUE: what a host read of an engine returns where the spec gives no value (R34, I-5: a free draw per read),
for each engine apart (R67). Logs 6, 15. -/
opaque Config.freeRead : (engine : Nat) → (draw : Nat) → Word

end Sys2Proof
end

