-- ==== Sys2Proof/Machine/State.lean ====
section
/-!
DEFINITION. The engine's state (10_state.md R21, R30), its values after reset (R41), and the names of the ways a step
can stop. State is plain data.
-/

namespace Sys2Proof.Machine

/-- MODE, the CCD's addressing mode (R26): 0 Absolute, 1 Relative. -/
inductive Mode where
  | absolute
  | relative
  deriving DecidableEq, Repr

/-- PHASE (R27): 0 IDLE, 1 BUSY, 2 DONE; 3 never occurs. -/
inductive Phase where
  | idle
  | busy
  | done
  deriving DecidableEq, Repr

/-- REASON, the stop reason of the last job (R28, R181): codes 0 to 6 in this order; 7 is never produced. -/
inductive Reason where
  | none
  | endMarker
  | outputExhausted
  | inputEnd
  | truncatedInput
  | badReference
  | unsupportedFormat
  deriving DecidableEq, Repr

/-- The registers the host sees (R30), numbered 0 to 6 in this order. -/
inductive HostReg where
  | ctrl
  | compType
  | inLen
  | targetSize
  | status
  | inPos
  | writePos
  deriving DecidableEq, Repr

/-- One thing the host does (R229), or a turn it leaves to the engine. Log 1. -/
inductive HostEvent where
  /-- The host does nothing and the engine takes one step. -/
  | engineTurn
  /-- Writes a register (R30). -/
  | writeReg (r : HostReg) (v : Word)
  /-- Reads a register (R30, R34). -/
  | readReg (r : HostReg)
  /-- Writes one byte of IN (R66). -/
  | writeIn (index : Word) (v : Byte)
  /-- Reads one byte of OUT (R66, R34). -/
  | readOut (index : Word)
  /-- Asserts reset (R220). -/
  | reset
  deriving DecidableEq, Repr

/-- A byte memory in canonical form (Machine/Memory.lean): addresses strictly rising, and no entry equal to what an
unlisted address reads as. -/
abbrev Memory := List Host.Cell

/-- The whole state. -/
structure State where
  /-- IN, the compressed stream (R22). -/
  inMem : Memory
  /-- OUT, the decoded buffer (R23). -/
  outMem : Memory
  /-- The size OUT was allocated with at the last decoding START (R65, R100). Log 5. -/
  outSize : Word
  /-- IN_POS, the stream cursor, the machine's pc (R24). -/
  inPos : Word
  /-- WRITE_POS, the output cursor (R25). -/
  writePos : Word
  /-- MODE (R26). -/
  mode : Mode
  /-- PHASE (R27). -/
  phase : Phase
  /-- REASON (R28). -/
  reason : Reason
  /-- DECODER (R29). -/
  decoder : Decoder
  /-- COMP_TYPE (R31). -/
  compType : Half
  /-- IN_LEN (R32). -/
  inLen : Word
  /-- TARGET_SIZE (R33). -/
  targetSize : Word
  /-- The model's own: which engine of the platform this is; indexes the free values of each engine. Log 15. -/
  engine : Nat
  /-- The model's own: how many times the host has asserted reset; indexes IN's unspecified contents. Log 4. -/
  resets : Nat
  /-- The model's own: the counter of free draws. Log 6. -/
  draws : Nat
  /-- The model's own: what the host does next, oldest first. Log 1. -/
  host : List HostEvent
  /-- The model's own: what the host's last read returned. Log 1. -/
  hostData : Word
  deriving DecidableEq, Repr

/-- After reset (R41). -/
def State.reset : State where
  inMem := []
  outMem := []
  outSize := 0
  inPos := 0
  writePos := 0
  mode := .absolute
  phase := .idle
  reason := .none
  decoder := .none
  compType := 0
  inLen := 0
  targetSize := 0
  engine := 0
  resets := 0
  draws := 0
  host := []
  hostData := 0

/-- The faults. The hardware has none (R180); these stop the model in states that no run from reset reaches, where the
spec's primitives have no meaning. -/
inductive Fault where
  /-- A read of OUT at an index of at least TARGET_SIZE, outside the range R12 gives MemRead_OUT. Raised by
  `memReadOut`. Safe: no such access exists on the hardware (R59). Log 10. -/
  | outReadOutOfRange
  /-- A write of OUT at an index of at least TARGET_SIZE, outside the range R12 gives MemWrite_OUT. Raised by
  `memWriteOut`. Safe: no such access exists on the hardware (R59). Log 10. -/
  | outWriteOutOfRange
  /-- An engine step with PHASE = BUSY and DECODER = 0, to which R29 gives no dispatch. Raised by `engineStep`. Safe:
  no job is in that state (R40). Log 11. -/
  | busyWithoutDecoder
  deriving DecidableEq, Repr

/-- The refusals. -/
inductive Refusal where
  /-- No meaning for the instruction in this model yet. Raised by `exec`'s arms. Safe. -/
  | notModelled (mnemonic : String)
  /-- A START with IN_LEN > IN_CAPACITY or TARGET_SIZE > OUT_CAPACITY: "the model refuses it" (R40, I-7). Raised by
  `start`. Safe: no claim covers such a START. Log 3. -/
  | startBeyondCapacity
  deriving DecidableEq, Repr

end Sys2Proof.Machine
end

