-- ==== Sys2Proof/Machine/Flags.lean ====
section
/-!
DEFINITION. The flags: MODE and REASON are the only ones a command sets (40_copy_code.md R119), and STATUS packs them
with PHASE and DECODER (10_state.md R30).
-/

namespace Sys2Proof.Machine

/-- PHASE's code (R27). -/
def Phase.code : Phase → Nat
  | .idle => 0
  | .busy => 1
  | .done => 2

/-- REASON's code (R181). -/
def Reason.code : Reason → Nat
  | .none => 0
  | .endMarker => 1
  | .outputExhausted => 2
  | .inputEnd => 3
  | .truncatedInput => 4
  | .badReference => 5
  | .unsupportedFormat => 6

/-- MODE's bit (R26). -/
def Mode.code : Mode → Nat
  | .absolute => 0
  | .relative => 1

/-- DECODER's code (R29). -/
def decoderCode : Decoder → Nat
  | .none => 0
  | .copyCode => 1
  | .runLength => 2

/-- The STATUS register (R30): PHASE in bits 1:0, REASON in 4:2, MODE in 5, DECODER in 7:6, the other bits 0. -/
def statusWord (s : State) : Word :=
  BitVec.ofNat 32 (s.phase.code + s.reason.code * 4 + s.mode.code * 32 + decoderCode s.decoder * 64)

/-- MODE <- m (R108). -/
def setMode (m : Mode) (s : State) : State := { s with mode := m }

end Sys2Proof.Machine
end

