-- ==== Sys2Proof/Machine/Memory.lean ====
section
/-!
DEFINITION. The two byte memories IN and OUT (20_memory.md R50): what an unlisted address reads as, the canonical
form, reading and writing one byte (R57), and the two views `State.inByte` and `State.outByte` of the contents.
-/

namespace Sys2Proof.Machine

/-- The two address spaces (R50). -/
inductive Space where
  | inStream
  | outBuffer
  deriving DecidableEq, Repr

/-- What an unlisted address reads as. OUT: 0, its value after the zero-fill (R40). IN: no listed value; the byte is
unspecified until the host writes it (R41), see `State.inByte`. Logs 4, 5. -/
def Space.unlisted : Space → Option Byte
  | .inStream => none
  | .outBuffer => some 0

/-- The canonical form: addresses strictly rising, and no entry equal to what an unlisted address reads as. -/
abbrev Memory.wf (sp : Space) (m : Memory) : Prop :=
  m.Pairwise (fun c d => c.1 < d.1) ∧ ∀ c ∈ m, some c.2 ≠ sp.unlisted

/-- The listed byte at an address. -/
def Memory.findCell (m : Memory) (a : Nat) : Option Byte :=
  match m with
  | [] => none
  | (b, v) :: m => if b = a then some v else Memory.findCell m a

/-- Lists a byte at an address, in order, in place of any byte listed there. -/
def Memory.setCell (m : Memory) (a : Nat) (v : Byte) : Memory :=
  match m with
  | [] => [(a, v)]
  | (b, w) :: m =>
    if a < b then (a, v) :: (b, w) :: m
    else if a = b then (a, v) :: m
    else (b, w) :: Memory.setCell m a v

/-- Takes an address off the list. -/
def Memory.dropCell (m : Memory) (a : Nat) : Memory :=
  match m with
  | [] => []
  | (b, w) :: m => if a = b then Memory.dropCell m a else (b, w) :: Memory.dropCell m a

/-- Reads one byte. -/
def Memory.read (sp : Space) (m : Memory) (a : Nat) : Option Byte :=
  match m.findCell a with
  | some v => some v
  | none => sp.unlisted

/-- Writes one byte, keeping the canonical form. -/
def Memory.write (sp : Space) (m : Memory) (a : Nat) (v : Byte) : Memory :=
  if some v = sp.unlisted then m.dropCell a else m.setCell a v

/-- Writes bytes at successive addresses. -/
def Memory.writeBytes (sp : Space) (m : Memory) (a : Nat) : List Byte → Memory
  | [] => m
  | v :: bytes => Memory.writeBytes sp (m.write sp a v) (a + 1) bytes

/-- Byte `a` of IN: what the host wrote there, or the unspecified byte IN holds there since the last reset (R41, I-6),
which is a free value. Log 4. -/
def State.inByte (s : State) (a : Nat) : Byte :=
  match Memory.read .inStream s.inMem a with
  | some v => v
  | none => Config.unwrittenIn s.engine s.resets a

/-- Byte `a` of OUT, for an index below OUT's size. Log 5. -/
def State.outByte (s : State) (a : Nat) : Byte :=
  match Memory.read .outBuffer s.outMem a with
  | some v => v
  | none => 0

end Sys2Proof.Machine
end

