-- ==== Sys2Proof/Machine/Ops.lean ====
section
/-!
DEFINITION. The named operations: raising a Stop (60_exceptions.md R189), the memory primitives (00_scope.md R12) and
the shared primitives of both decoders (40_copy_code.md R101 to R106, 41_run_length.md R151).
-/

namespace Sys2Proof.Machine

/-- What a primitive does: it returns a value and the job goes on, it ends the job by a Stop (R13: the rest of the
command and of the job is abandoned), or it has no meaning (a fault). -/
inductive Run (α : Type) where
  | ok (value : α) (s : State)
  | stopped (s : State)
  | faulted (f : Fault)
  deriving Repr

/-- One primitive after another. A helper that raises Stop does not return (R14). -/
def Run.bind {α β : Type} (r : Run α) (next : α → State → Run β) : Run β :=
  match r with
  | .ok value s => next value s
  | .stopped s => .stopped s
  | .faulted f => .faulted f

/-- The outcome of a command: a command that completes and one that ends the job by a Stop both leave a next state. -/
def Run.outcome (r : Run Unit) : Host.Outcome State Fault Refusal :=
  match r with
  | .ok _ s => .next s
  | .stopped s => .next s
  | .faulted f => .fault f

/-- `raise Stop(r)`: REASON <- r and PHASE <- DONE, and nothing else (R189). There is no return from a stop: only a
START or a reset leaves DONE (R190). -/
def raiseStop (r : Reason) (s : State) : State := { s with reason := r, phase := .done }

/-- IN_POS moves over `n` bytes consumed (R24). -/
def consume (n : Nat) (s : State) : State := { s with inPos := s.inPos + BitVec.ofNat 32 n }

/-- MemRead_OUT(a, 1), for a < TARGET_SIZE (R12). -/
def memReadOut (a : Nat) (s : State) : Run Byte :=
  if a < s.targetSize.toNat then .ok (s.outByte a) s else .faulted .outReadOutOfRange

/-- MemWrite_OUT(a, 1, v), for a < TARGET_SIZE (R12). -/
def memWriteOut (a : Nat) (v : Byte) (s : State) : Run Unit :=
  if a < s.targetSize.toNat then .ok () { s with outMem := Memory.write .outBuffer s.outMem a v }
  else .faulted .outWriteOutOfRange

/-- Fetch8 (R101). The check is the range of MemRead_IN (R12). -/
def fetch8 (s : State) : Run Byte :=
  if s.inLen.toNat ≤ s.inPos.toNat then .stopped (raiseStop .truncatedInput s)
  else .ok (s.inByte s.inPos.toNat) (consume 1 s)

/-- Put (R103). -/
def put (v : Byte) (s : State) : Run Unit :=
  if s.writePos = s.targetSize then .stopped (raiseStop .outputExhausted s)
  else (memWriteOut s.writePos.toNat v s).bind fun _ s => .ok () { s with writePos := s.writePos + 1 }

/-- CopyLiteral (R104): the output check comes before the fetch. -/
def copyLiteral (n : Nat) (s : State) : Run Unit :=
  match n with
  | 0 => .ok () s
  | n + 1 =>
    if s.writePos = s.targetSize then .stopped (raiseStop .outputExhausted s)
    else (fetch8 s).bind fun v s => (put v s).bind fun _ s => copyLiteral n s

/-- FillBytes (R105). -/
def fillBytes (n : Nat) (v : Byte) (s : State) : Run Unit :=
  match n with
  | 0 => .ok () s
  | n + 1 => (put v s).bind fun _ s => fillBytes n v s

/-- CopyBack (R106), byte by byte: `src` is the source of the next byte, a mathematical integer. -/
def copyBack (src : Int) (n : Nat) (s : State) : Run Unit :=
  match n with
  | 0 => .ok () s
  | n + 1 =>
    if s.writePos = s.targetSize then .stopped (raiseStop .outputExhausted s)
    else if src < 0 ∨ (s.writePos.toNat : Int) ≤ src then .stopped (raiseStop .badReference s)
    else (memReadOut src.toNat s).bind fun v s => (put v s).bind fun _ s => copyBack (src + 1) n s

/-- The bytes of IN at `a` and after, at most `k`, up to IN_LEN. -/
def bytesFrom (s : State) (k : Nat) (a : Nat) : List Byte :=
  match k with
  | 0 => []
  | k + 1 => if a < s.inLen.toNat then s.inByte a :: bytesFrom s k (a + 1) else []

/-- The bytes at IN_POS that a command's opcode and operands can take. Log 9. -/
def operandWindow (s : State) : List Byte := bytesFrom s longestOperands s.inPos.toNat

end Sys2Proof.Machine
end

