-- ==== Sys2Proof/Machine/Operands.lean ====
section
/-!
DEFINITION. The operand forms of the back-references: a distance behind WRITE_POS and an operand word that MODE
resolves (40_copy_code.md R107, R110, R119). Every source index is an exact integer, with no wrap (R119).
-/

namespace Sys2Proof.Machine

/-- SBR's source, WRITE_POS - dist, in both modes (R110). -/
def distanceSource (dist : BitVec 12) (s : State) : Int := (s.writePos.toNat : Int) - (dist.toNat : Int)

/-- Resolve (R107): the source of MCP and VCP. -/
def resolve (dat : Half) (s : State) : Int :=
  match s.mode with
  | .relative => (s.writePos.toNat : Int) - (dat.toNat : Int)
  | .absolute => (dat.toNat : Int)

end Sys2Proof.Machine
end

