-- ==== Sys2Proof/Machine/CopyCode.lean ====
section
/-!
DEFINITION. The meanings of the Copy-Code Decoder's commands (40_copy_code.md R108, R110 to R115). A meaning starts
with IN_POS at the command's first byte and consumes its opcode and operand bytes first (R188 item 5: operands are
consumed before any check on OUT). Log 8.
-/

namespace Sys2Proof.Machine

/-- REL (R108): the prefix is consumed and MODE <- Relative. -/
def execRel (s : State) : Host.Outcome State Fault Refusal :=
  .next (setMode .relative (consume Instr.rel.size s))

/-- SBR (R110): CopyBack from WRITE_POS - dist, in both modes. -/
def execSbr (count : Nat) (dist : BitVec 12) (s : State) : Host.Outcome State Fault Refusal :=
  let s := consume (Instr.sbr count dist).size s
  (copyBack (distanceSource dist s) count s).outcome

/-- LIT (R111): CopyLiteral of `count` bytes. -/
def execLit (count : Nat) (s : State) : Host.Outcome State Fault Refusal :=
  (copyLiteral count (consume (Instr.lit count).size s)).outcome

/-- END (R112): Stop(END_MARKER), always. -/
def execEndMark (s : State) : Host.Outcome State Fault Refusal :=
  .next (raiseStop .endMarker (consume Instr.endMark.size s))

/-- MCP (R113): CopyBack from Resolve(dat). -/
def execMcp (count : Nat) (dat : Half) (s : State) : Host.Outcome State Fault Refusal :=
  let s := consume (Instr.mcp count dat).size s
  (copyBack (resolve dat s) count s).outcome

/-- FILL (R114): FillBytes of n bytes v. -/
def execFill (n : Half) (v : Byte) (s : State) : Host.Outcome State Fault Refusal :=
  (fillBytes n.toNat v (consume (Instr.fill n v).size s)).outcome

/-- VCP (R115): CopyBack of n bytes from Resolve(dat), clamped like every other command (C1). -/
def execVcp (n dat : Half) (s : State) : Host.Outcome State Fault Refusal :=
  let s := consume (Instr.vcp n dat).size s
  (copyBack (resolve dat s) n.toNat s).outcome

end Sys2Proof.Machine
end

