-- ==== Sys2Proof/Machine/RunLength.lean ====
section
/-!
DEFINITION. The meanings of the Run-Length Decoder's commands (41_run_length.md R153 to R155). A meaning starts with
IN_POS at the control byte and consumes the control and operand bytes first. Log 8.
-/

namespace Sys2Proof.Machine

/-- RLIT (R153): CopyLiteral of `count` bytes. -/
def execRlit (count : Nat) (s : State) : Host.Outcome State Fault Refusal :=
  (copyLiteral count (consume (Instr.rlit count).size s)).outcome

/-- RREP (R154): FillBytes of n bytes v. -/
def execRrep (n : Nat) (v : Byte) (s : State) : Host.Outcome State Fault Refusal :=
  (fillBytes n v (consume (Instr.rrep n v).size s)).outcome

/-- RXT (R155): FillBytes of n bytes v. -/
def execRxt (n : Half) (v : Byte) (s : State) : Host.Outcome State Fault Refusal :=
  (fillBytes n.toNat v (consume (Instr.rxt n v).size s)).outcome

end Sys2Proof.Machine
end

