-- ==== Sys2Proof/Machine/Dispatch.lean ====
section
/-!
DEFINITION. One arm per constructor of Instr.
-/

namespace Sys2Proof.Machine

def exec (i : Instr) (s : State) : Host.Outcome State Fault Refusal :=
  match i with
  | .rel => Sys2Proof.Machine.execRel s
  | .sbr count dist => Sys2Proof.Machine.execSbr count dist s
  | .lit count => Sys2Proof.Machine.execLit count s
  | .endMark => Sys2Proof.Machine.execEndMark s
  | .mcp count dat => Sys2Proof.Machine.execMcp count dat s
  | .fill n v => Sys2Proof.Machine.execFill n v s
  | .vcp n dat => Sys2Proof.Machine.execVcp n dat s
  | .rlit count => Sys2Proof.Machine.execRlit count s
  | .rrep n v => Sys2Proof.Machine.execRrep n v s
  | .rxt n v => Sys2Proof.Machine.execRxt n v s

end Sys2Proof.Machine
end

