-- ==== Sys2Proof/Machine/Engine.lean ====
section
/-!
DEFINITION. A step of the engine (40_copy_code.md R109, 41_run_length.md R152): the two checks, then one whole command
is fetched and executed. Job start is in Machine/Job.lean.
-/

namespace Sys2Proof.Machine

/-- A command whose operand bytes are not all there: the bytes that are there are consumed, then
Stop(TRUNCATED_INPUT) (R101, R102, R151, R183). Log 9. -/
def operandsCut (s : State) : State := raiseStop .truncatedInput (consume (operandWindow s).length s)

/-- The command at IN_POS. -/
def runCommand (s : State) : Host.Outcome State Fault Refusal :=
  match decode s.decoder s.inPos.toNat (operandWindow s) with
  | .ok (i, _) => exec i s
  | .error .noDecoder => .fault .busyWithoutDecoder
  | .error .empty => .next (operandsCut s)
  | .error .truncated => .next (operandsCut s)

/-- A step of a BUSY job: the output check before the input check (R109, R152, R188). -/
def busyStep (s : State) : Host.Outcome State Fault Refusal :=
  if s.writePos = s.targetSize then .next (raiseStop .outputExhausted s)
  else if s.inPos = s.inLen then .next (raiseStop .inputEnd s)
  else runCommand s

/-- A step of the engine. IDLE and DONE are quiet: nothing but a START wakes the engine (R195). -/
def engineStep (s : State) : Host.Outcome State Fault Refusal :=
  match s.phase with
  | .idle => .next s
  | .busy => busyStep s
  | .done => .next s

end Sys2Proof.Machine
end

