-- ==== Sys2Proof/Machine/Job.lean ====
section
/-!
DEFINITION. Job start (10_state.md R40) with the CCD's mode resolution (40_copy_code.md R108), and UNSUPPORTED_FORMAT
(60_exceptions.md R182).
-/

namespace Sys2Proof.Machine

/-- The zero-fill of OUT[0 .. TARGET_SIZE-1] (R40): OUT is allocated with TARGET_SIZE bytes, all 0 (R23, R65). Log 5. -/
def zeroFill (s : State) : State := { s with outMem := [], outSize := s.targetSize }

/-- The first line of R40: the cursors, MODE and REASON at a job's start. -/
def clearCursors (s : State) : State := { s with inPos := 0, writePos := 0, mode := .absolute, reason := .none }

/-- Mode resolution (R108): a leading 0x00 is the REL prefix and runs as part of START; otherwise MODE stays
Absolute and the byte is left for the first step. -/
def resolveMode (s : State) : Host.Outcome State Fault Refusal :=
  if 1 ≤ s.inLen.toNat ∧ s.inByte 0 = 0x00#8 then execRel s else .next s

/-- A job start of a known kind (R40, R182, R188 item 1). -/
def beginJob (kind : Kind) (s : State) : Host.Outcome State Fault Refusal :=
  let s := clearCursors s
  match kind with
  | .unsupported => .next (raiseStop .unsupportedFormat { s with decoder := .none })
  | .copyCode => resolveMode { zeroFill s with decoder := .copyCode, phase := .busy }
  | .runLength => .next { zeroFill s with decoder := .runLength, phase := .busy }

/-- A START while PHASE != BUSY (R40). Beyond a capacity it has no meaning and is refused (R40, I-7). Log 3. -/
def start (s : State) : Host.Outcome State Fault Refusal :=
  if Config.inCapacity.toNat < s.inLen.toNat ∨ Config.outCapacity.toNat < s.targetSize.toNat then
    .refused .startBeyondCapacity
  else beginJob (Config.compressionTypeMap s.compType) s

end Sys2Proof.Machine
end

