-- ==== Sys2Proof/Machine/HostPort.lean ====
section
/-!
DEFINITION. What the host can do to the engine (70_reset_and_hazards.md R229): the register view (10_state.md R30,
R34), IN and OUT (20_memory.md R66), reset (R220); and a turn of the machine, in which the host acts or the engine
steps. Log 1.
-/

namespace Sys2Proof.Machine

/-- A register's number (R30). -/
def HostReg.number : HostReg → Nat
  | .ctrl => 0
  | .compType => 1
  | .inLen => 2
  | .targetSize => 3
  | .status => 4
  | .inPos => 5
  | .writePos => 6

/-- The bits of a register that R30 lists; a bit not listed reads 0. -/
def HostReg.listedBits : HostReg → Word
  | .ctrl => 0x00000001#32
  | .compType => 0x0000FFFF#32
  | .inLen => 0xFFFFFFFF#32
  | .targetSize => 0xFFFFFFFF#32
  | .status => 0x000000FF#32
  | .inPos => 0xFFFFFFFF#32
  | .writePos => 0xFFFFFFFF#32

/-- The value a register holds (R30); CTRL reads 0. -/
def registerValue (r : HostReg) (s : State) : Word :=
  match r with
  | .ctrl => 0
  | .compType => s.compType.setWidth 32
  | .inLen => s.inLen
  | .targetSize => s.targetSize
  | .status => statusWord s
  | .inPos => s.inPos
  | .writePos => s.writePos

/-- A read that returns `v`. -/
def hostGets (v : Word) (s : State) : State := { s with hostData := v }

/-- A read that returns an unspecified value in the bits of `mask`: a free draw, with no effect on the job (R34, I-5).
Log 6. -/
def hostDraws (mask : Word) (s : State) : State :=
  { s with hostData := Config.freeRead s.engine s.draws &&& mask, draws := s.draws + 1 }

/-- The host reads a register. While BUSY the value is unspecified (R34), but CTRL always reads 0 (R30). DESIGN CHOICE:
a read of STATUS while BUSY is any value of its eight bits (I-5), so it can also show PHASE 3, REASON 7 or DECODER 3,
which no state has (I-8). Log 6. -/
def hostReadReg (r : HostReg) (s : State) : State :=
  if s.phase = .busy ∧ r ≠ .ctrl then hostDraws r.listedBits s else hostGets (registerValue r s) s

/-- The host writes a register (R30). While BUSY every write is ignored (R34, R200); the read-only registers ignore
writes always. -/
def hostWriteReg (r : HostReg) (v : Word) (s : State) : Host.Outcome State Fault Refusal :=
  if s.phase = .busy then .next s
  else
    match r with
    | .ctrl => if v.getLsbD 0 then start s else .next s
    | .compType => .next { s with compType := v.setWidth 16 }
    | .inLen => .next { s with inLen := v }
    | .targetSize => .next { s with targetSize := v }
    | .status => .next s
    | .inPos => .next s
    | .writePos => .next s

/-- The host writes a byte of IN; ignored while BUSY (R66). -/
def hostWriteIn (index : Word) (v : Byte) (s : State) : State :=
  if s.phase = .busy then s else { s with inMem := Memory.write .inStream s.inMem index.toNat v }

/-- The host reads a byte of OUT. It is the result's byte when PHASE = DONE after a decoding job and the index is
inside OUT (R35, R66); otherwise the value is unspecified (R34, R182, I-6). Logs 5, 6. -/
def hostReadOut (index : Word) (s : State) : State :=
  if s.phase = .done ∧ s.decoder ≠ .none ∧ index.toNat < s.outSize.toNat then
    hostGets ((s.outByte index.toNat).setWidth 32) s
  else hostDraws 0x000000FF#32 s

/-- Reset (R220, R41). The host itself is not reset; IN's contents are unspecified anew. Logs 1, 4, 15. -/
def hostReset (s : State) : State :=
  { State.reset with
    engine := s.engine, resets := s.resets + 1, draws := s.draws, host := s.host, hostData := s.hostData }

/-- One action of the host, or the engine's turn. -/
def act (e : HostEvent) (s : State) : Host.Outcome State Fault Refusal :=
  match e with
  | .engineTurn => engineStep s
  | .writeReg r v => hostWriteReg r v s
  | .readReg r => .next (hostReadReg r s)
  | .writeIn index v => .next (hostWriteIn index v s)
  | .readOut index => .next (hostReadOut index s)
  | .reset => .next (hostReset s)

/-- One turn of the machine: what the host does next, or the engine's step when the host has nothing more to do. -/
def turn (s : State) : Host.Outcome State Fault Refusal :=
  match s.host with
  | [] => engineStep s
  | e :: rest => act e { s with host := rest }

/-- A running one-command job whose next step fetches the given bytes: the state a START leaves, with the bytes in
IN at `index`, IN_LEN at their end and room in OUT for the longest literal or repeat run (128 bytes). Log 14. -/
def loadCommand (d : Decoder) (index : Nat) (bytes : List Byte) (s : State) : State :=
  { s with
    inMem := Memory.writeBytes .inStream s.inMem index bytes
    outMem := []
    outSize := 128
    inPos := BitVec.ofNat 32 index
    writePos := 0
    mode := .absolute
    phase := .busy
    reason := .none
    decoder := d
    inLen := BitVec.ofNat 32 (index + bytes.length)
    targetSize := 128
    host := [] }

end Sys2Proof.Machine
end

