-- ==== Sys2Proof/Machine/Step.lean ====
section
/-!
DEFINITION. The step of the machine, and the state in which the next step runs a given opcode-table word.
-/

namespace Sys2Proof.Machine

/-- One step: the host's next action, or one step of the engine (10_state.md R20). -/
def step (s : State) : Host.Outcome State Fault Refusal := turn s

/-- The state whose next step fetches and runs the instruction of an opcode-table word. Logs 13, 14. -/
def State.withFetchWord (s : State) (nbits w : Nat) : State :=
  loadCommand (tableDecoder nbits w) (tableIndex nbits w) (tableBytes nbits w) s

end Sys2Proof.Machine
end

