-- ==== Sys2Proof/Machine/ByteWise.lean ====
section
/-!
DEFINITION. The two decoders' steps as the spec's pseudocode writes them, byte by byte: CCD_Step (40_copy_code.md R109)
with its commands (R110 to R115), RLD_Step (41_run_length.md R152) with its commands (R153 to R155), the word fetches
(R102, R151), and the whole job as one function (R116, R156). The machine itself decodes a command whole (`engineStep`);
that the two agree is stated in Certificates/Slice0/Obligations.lean.
-/

namespace Sys2Proof.Machine

/-- Fetch16LE (R102). -/
def fetch16LE (s : State) : Run Nat :=
  (fetch8 s).bind fun lo s => (fetch8 s).bind fun hi s => .ok (hi.toNat <<< 8 ||| lo.toNat) s

/-- Fetch16BE (R151). -/
def fetch16BE (s : State) : Run Nat :=
  (fetch8 s).bind fun hi s => (fetch8 s).bind fun lo s => .ok (hi.toNat <<< 8 ||| lo.toNat) s

/-- Resolve (R107) of an operand word. -/
def resolveWord (dat : Nat) (s : State) : Int :=
  if s.mode = .relative then (s.writePos.toNat : Int) - (dat : Int) else (dat : Int)

/-- SBR(op) (R110). -/
def sbrBytes (op : Byte) (s : State) : Run Unit :=
  (fetch8 s).bind fun b s =>
    let count := (op.toNat >>> 4) + 3
    let dist := (op.toNat &&& 0x0F) <<< 8 ||| b.toNat
    copyBack ((s.writePos.toNat : Int) - (dist : Int)) count s

/-- LIT(op) (R111). -/
def litBytes (op : Byte) (s : State) : Run Unit := copyLiteral (op.toNat &&& 0x3F) s

/-- END() (R112). -/
def endBytes (s : State) : Run Unit := .stopped (raiseStop .endMarker s)

/-- MCP(op) (R113). -/
def mcpBytes (op : Byte) (s : State) : Run Unit :=
  (fetch16LE s).bind fun dat s => copyBack (resolveWord dat s) ((op.toNat &&& 0x3F) + 3) s

/-- FILL() (R114). -/
def fillBytesCommand (s : State) : Run Unit :=
  (fetch16LE s).bind fun n s => (fetch8 s).bind fun v s => fillBytes n v s

/-- VCP() (R115). -/
def vcpBytes (s : State) : Run Unit :=
  (fetch16LE s).bind fun n s => (fetch16LE s).bind fun dat s => copyBack (resolveWord dat s) n s

/-- CCD_Step() (R109). -/
def ccdStep (s : State) : Run Unit :=
  if s.writePos = s.targetSize then .stopped (raiseStop .outputExhausted s)
  else if s.inPos = s.inLen then .stopped (raiseStop .inputEnd s)
  else (fetch8 s).bind fun op s =>
    if op.getLsbD 7 = false then sbrBytes op s
    else if op.getLsbD 6 = false then
      if op.toNat &&& 0x3F = 0 then endBytes s else litBytes op s
    else if op.toNat &&& 0x3F < 0x3E then mcpBytes op s
    else if op.toNat &&& 0x3F = 0x3E then fillBytesCommand s
    else vcpBytes s

/-- sext_8 (R11). -/
def sext8 (v : Byte) : Int := if v.toNat < 128 then (v.toNat : Int) else (v.toNat : Int) - 256

/-- RREP(b) (R154): the negation is mathematical. -/
def rrepBytes (b : Int) (s : State) : Run Unit := (fetch8 s).bind fun v s => fillBytes (-b).toNat v s

/-- RXT() (R155). -/
def rxtBytes (s : State) : Run Unit :=
  (fetch16BE s).bind fun n s => (fetch8 s).bind fun v s => fillBytes n v s

/-- RLD_Step() (R152); RLIT(b) is CopyLiteral(b) (R153). -/
def rldStep (s : State) : Run Unit :=
  if s.writePos = s.targetSize then .stopped (raiseStop .outputExhausted s)
  else if s.inPos = s.inLen then .stopped (raiseStop .inputEnd s)
  else (fetch8 s).bind fun k s =>
    if 0 < sext8 k then copyLiteral (sext8 k).toNat s
    else if sext8 k < 0 then rrepBytes (sext8 k) s
    else rxtBytes s

/-- The loop of R116 and R156: steps until a Stop, at most `bound` of them. -/
def untilStop (oneStep : State → Run Unit) (bound : Nat) (s : State) : Run Unit :=
  match bound with
  | 0 => .ok () s
  | bound + 1 => (oneStep s).bind fun _ s => untilStop oneStep bound s

/-- A whole job (R116, R156): its START, then its steps. IN_LEN + 1 of them are enough (R117, R157). -/
def wholeJob (kind : Kind) (oneStep : State → Run Unit) (s : State) : Host.Outcome State Fault Refusal :=
  match beginJob kind s with
  | .next t => (untilStop oneStep (t.inLen.toNat + 1) t).outcome
  | .fault f => .fault f
  | .refused r => .refused r

/-- CCD_Job (R116). -/
def ccdJob (s : State) : Host.Outcome State Fault Refusal := wholeJob .copyCode ccdStep s

/-- RLD_Job (R156). -/
def rldJob (s : State) : Host.Outcome State Fault Refusal := wholeJob .runLength rldStep s

end Sys2Proof.Machine
end

