-- ==== Sys2Proof/Machine/Platform.lean ====
section
/-!
DEFINITION. N_ENGINES engines (00_scope.md R9, 20_memory.md R67, 60_exceptions.md R194): a list of states, each with
its own IN, OUT and registers. A step of the platform is a step of one engine; which one is the caller's choice, since
there is no ordering between engines. Log 15.
-/

namespace Sys2Proof.Machine

/-- The engines of a platform. -/
abbrev Platform := List State

/-- A platform has N_ENGINES engines, each numbered by its place. -/
def Platform.wf (p : Platform) : Prop :=
  p.length = Config.engineCount ∧ ∀ (k : Nat) (s : State), p[k]? = some s → s.engine = k

/-- The platform after reset: every engine is reset, with its own unspecified values. -/
def Platform.reset : Platform := (List.range Config.engineCount).map fun k => { State.reset with engine := k }

/-- Engine `k` takes a step. -/
def Platform.stepEngine (k : Nat) (p : Platform) : Host.Outcome Platform Fault Refusal :=
  match p[k]? with
  | none => .next p
  | some s =>
    match step s with
    | .next t => .next (p.set k t)
    | .fault f => .fault f
    | .refused r => .refused r

end Sys2Proof.Machine
end

