-- ==== Sys2Proof/Safety.lean ====
section
/-!
DEFINITION. The terms in which claims are stated: the invariant of every reachable state (10_state.md R38), what a
command leaves behind (its result and its frame together), and when a job's inputs are the same.
-/

namespace Sys2Proof.Machine

/-- How many bytes OUT still takes: TARGET_SIZE - WRITE_POS. -/
def State.room (s : State) : Nat := s.targetSize.toNat - s.writePos.toNat

/-- How many bytes IN still holds from `used` bytes past IN_POS on. -/
def State.ahead (s : State) (used : Nat) : Nat := s.inLen.toNat - (s.inPos.toNat + used)

/-- OUT is in canonical form and WRITE_POS is inside it or at its end (R38 item 1, R59). -/
def State.OutReady (s : State) : Prop :=
  Memory.wf .outBuffer s.outMem ∧ s.writePos.toNat ≤ s.targetSize.toNat

/-- IN holds `used` more bytes and OUT is ready: what a step has established when it executes a command of `used`
opcode and operand bytes (R38, R59). -/
def State.Ready (s : State) (used : Nat) : Prop :=
  s.inPos.toNat + used ≤ s.inLen.toNat ∧ s.OutReady

/-- A job is running and the host has nothing more to do. -/
def State.Running (s : State) : Prop := s.phase = .busy ∧ s.host = []

/-- What every reachable state satisfies. -/
structure State.Inv (s : State) : Prop where
  /-- IN is in canonical form. -/
  inCanonical : Memory.wf .inStream s.inMem
  /-- OUT is in canonical form. -/
  outCanonical : Memory.wf .outBuffer s.outMem
  /-- OUT is zero from WRITE_POS on, for a decoding job (R38 item 3). -/
  outZeroAhead : s.decoder ≠ .none → ∀ c ∈ s.outMem, c.1 < s.writePos.toNat
  /-- WRITE_POS is at most OUT's size, for a decoding job (R38 item 1). -/
  writeInside : s.decoder ≠ .none → s.writePos.toNat ≤ s.outSize.toNat
  /-- IDLE means that no job has run since reset (R27, R28, R41). -/
  idle : s.phase = .idle → s.reason = .none ∧ s.decoder = .none
  /-- While BUSY: REASON is NONE (R28), a decoder is selected (R29), OUT has TARGET_SIZE bytes (R65), IN_POS is at most
  IN_LEN (R38 item 2). -/
  busy : s.phase = .busy → s.reason = .none ∧ s.decoder ≠ .none ∧ s.outSize = s.targetSize ∧
    s.inPos.toNat ≤ s.inLen.toNat
  /-- A CCD job does not stand before an unresolved REL prefix (R73, R108). -/
  prefixResolved : s.phase = .busy → s.decoder = .copyCode → s.inPos = 0 → s.inLen = 0 ∨ s.inByte 0 ≠ 0x00#8
  /-- After DONE there is a stop reason, and it is UNSUPPORTED_FORMAT exactly when no decoder was selected (R182). -/
  done : s.phase = .done → s.reason ≠ .none ∧ (s.reason = .unsupportedFormat ↔ s.decoder = .none)
  /-- With no decoder the cursors are 0 and MODE is Absolute (R41, R182). -/
  noDecoder : s.decoder = .none → s.inPos = 0 ∧ s.writePos = 0 ∧ s.mode = .absolute
  /-- An RLD job leaves MODE Absolute (R26) and never ends with END_MARKER or BAD_REFERENCE (R156). -/
  runLength : s.decoder = .runLength → s.mode = .absolute ∧ s.reason ≠ .endMarker ∧ s.reason ≠ .badReference

/-- How a command leaves PHASE and REASON: as they were, or by a Stop with a reason (R189). -/
def Ended (s t : State) : Option Reason → Prop
  | none => t.phase = s.phase ∧ t.reason = s.reason
  | some r => t.phase = .done ∧ t.reason = r

/-- `t` is `s` after a command that consumed `used` bytes of IN, wrote the `m` bytes `byte 0`, `byte 1`, … at
WRITE_POS and after, and ended as `ended` says; everything else is unchanged. -/
structure Wrote (s t : State) (used m : Nat) (byte : Nat → Byte) (ended : Option Reason) : Prop where
  inPos : t.inPos.toNat = s.inPos.toNat + used
  writePos : t.writePos.toNat = s.writePos.toNat + m
  written : ∀ i, i < m → t.outByte (s.writePos.toNat + i) = byte i
  untouched : ∀ a, a < s.writePos.toNat ∨ s.writePos.toNat + m ≤ a → t.outByte a = s.outByte a
  ended : Ended s t ended
  inMem : t.inMem = s.inMem
  inBytes : ∀ a, t.inByte a = s.inByte a
  outSize : t.outSize = s.outSize
  mode : t.mode = s.mode
  decoder : t.decoder = s.decoder
  compType : t.compType = s.compType
  inLen : t.inLen = s.inLen
  targetSize : t.targetSize = s.targetSize
  engine : t.engine = s.engine
  resets : t.resets = s.resets
  draws : t.draws = s.draws
  host : t.host = s.host
  hostData : t.hostData = s.hostData

/-- FillBytes (R105) after `used` bytes are consumed: as many of the `n` bytes `v` as OUT takes; OUTPUT_EXHAUSTED when
not all fit. -/
def Filled (s t : State) (used n : Nat) (v : Byte) : Prop :=
  Wrote s t used (min n s.room) (fun _ => v) (if n ≤ s.room then none else some .outputExhausted)

/-- CopyLiteral (R104) after `used` bytes are consumed: as many of the next `n` stream bytes as OUT takes and IN holds;
when not all of them, OUTPUT_EXHAUSTED if OUT is full by then, else TRUNCATED_INPUT. -/
def CopiedLiteral (s t : State) (used n : Nat) : Prop :=
  let m := min n (min s.room (s.ahead used))
  Wrote s t (used + m) m (fun i => s.inByte (s.inPos.toNat + used + i))
    (if n ≤ s.room ∧ n ≤ s.ahead used then none
     else if s.room ≤ s.ahead used then some .outputExhausted else some .truncatedInput)

/-- CopyBack (R106) from `src` after `used` bytes are consumed. Zero bytes: no check. Otherwise a full OUT stops it;
then a source that is not an already written position stops it with BAD_REFERENCE; then as many of the `n` bytes as OUT
takes are written, repeating with period WRITE_POS - src. -/
def CopiedBack (s t : State) (used : Nat) (src : Int) (n : Nat) : Prop :=
  if n = 0 then Wrote s t used 0 (fun _ => 0) none
  else if s.room = 0 then Wrote s t used 0 (fun _ => 0) (some .outputExhausted)
  else if src < 0 ∨ (s.writePos.toNat : Int) ≤ src then Wrote s t used 0 (fun _ => 0) (some .badReference)
  else
    Wrote s t used (min n s.room)
      (fun i => s.outByte (src.toNat + i % (s.writePos.toNat - src.toNat)))
      (if n ≤ s.room then none else some .outputExhausted)

/-- Two states agree on everything a job's result can show (R35) and on everything it depends on (R37). -/
structure SameJob (s t : State) : Prop where
  inBytes : ∀ a, a < s.inLen.toNat → s.inByte a = t.inByte a
  outMem : s.outMem = t.outMem
  outSize : s.outSize = t.outSize
  inPos : s.inPos = t.inPos
  writePos : s.writePos = t.writePos
  mode : s.mode = t.mode
  phase : s.phase = t.phase
  reason : s.reason = t.reason
  decoder : s.decoder = t.decoder
  inLen : s.inLen = t.inLen
  targetSize : s.targetSize = t.targetSize

end Sys2Proof.Machine
end

