-- ==== Sys2Proof/Certificates/Slice0/Obligations.lean ====
section
/-!
DEFINITION. What is claimed of the model, for the provers. `State.Ready`, `Filled`, `CopiedLiteral`, `CopiedBack` and
`Wrote` (Safety.lean) say a command's result and its frame together.
-/

open Sys2Proof Sys2Proof.Machine

/-! ### Reset -/

/-- The register values after reset (R41). IN's and OUT's contents are unspecified there: the last two clauses say that
the model leaves them free (logs 4, 5, the model's choice). -/
def Obligations.ResetValues : Prop :=
  State.reset.phase = .idle ∧ State.reset.reason = .none ∧ State.reset.mode = .absolute ∧
  State.reset.decoder = .none ∧ State.reset.inPos = 0 ∧ State.reset.writePos = 0 ∧
  State.reset.compType = 0 ∧ State.reset.inLen = 0 ∧ State.reset.targetSize = 0 ∧
  registerValue .ctrl State.reset = 0 ∧
  (∀ a, State.reset.inByte a = Config.unwrittenIn State.reset.engine State.reset.resets a) ∧
  ∀ a, hostReadOut a State.reset = hostDraws 0xFF#32 State.reset

/-- Reset in any state, a running job included, sets every register to its reset value and records no stop reason (R220,
R41). The rest is the model's choice: nothing is listed in IN, whose contents are the free values of a new count of
resets (log 4); nothing is listed in OUT and its size is 0 (log 5); the draws, the engine's number and the host's own
fields stay (logs 6, 15, 1). -/
def Obligations.ResetFromAnyState : Prop :=
  ∀ s : State, ∃ t, act .reset s = .next t ∧
    t.phase = .idle ∧ t.reason = .none ∧ t.mode = .absolute ∧ t.decoder = .none ∧ t.inPos = 0 ∧ t.writePos = 0 ∧
    t.compType = 0 ∧ t.inLen = 0 ∧ t.targetSize = 0 ∧ t.inMem = [] ∧ t.outMem = [] ∧ t.outSize = 0 ∧
    (∀ a, t.inByte a = Config.unwrittenIn s.engine (s.resets + 1) a) ∧
    t.engine = s.engine ∧ t.draws = s.draws ∧ t.host = s.host ∧ t.hostData = s.hostData

/-! ### Encoding -/

/-- One word of each command, written out from the encodings of R74 to R83, decodes to the command it stands for. -/
def Obligations.SpecWordsDecode : Prop :=
  decode .copyCode 0 [0b00000000#8] = .ok (.rel, []) ∧
  decode .copyCode 1 [0b01111111#8, 0b00000001#8] = .ok (.sbr 10 0xF01#12, []) ∧
  decode .copyCode 0 [0b10000101#8] = .ok (.lit 5, []) ∧
  decode .copyCode 0 [0b10000000#8] = .ok (.endMark, []) ∧
  decode .copyCode 0 [0b11000001#8, 0x34#8, 0x12#8] = .ok (.mcp 4 0x1234#16, []) ∧
  decode .copyCode 0 [0b11111110#8, 0x04#8, 0x01#8, 0x99#8] = .ok (.fill 0x0104#16 0x99#8, []) ∧
  decode .copyCode 0 [0b11111111#8, 0x05#8, 0x01#8, 0x02#8, 0x03#8] = .ok (.vcp 0x0105#16 0x0302#16, []) ∧
  decode .runLength 0 [0b01111111#8] = .ok (.rlit 127, []) ∧
  decode .runLength 0 [0b10000000#8, 0x39#8] = .ok (.rrep 128 0x39#8, []) ∧
  decode .runLength 0 [0b00000000#8, 0x01#8, 0x05#8, 0x41#8] = .ok (.rxt 0x0105#16 0x41#8, [])

/-- Every well-formed command, with every operand value its encoding admits, at every position where it can stand,
decodes from its encoding to itself and leaves what follows it. -/
def Obligations.DecodeOfEncode : Prop :=
  ∀ (i : Instr) (index : Nat) (rest : List Byte), i.wellFormed = true → i.placeable index = true →
    decode i.decoder index (encode i ++ rest) = .ok (i, rest)

/-- What the decoder reads is the encoding of what it answers, with well-formed operands, in the selected decoder's
format and at a position where it can stand: each byte sequence has one meaning. -/
def Obligations.EncodeOfDecode : Prop :=
  ∀ (d : Decoder) (index : Nat) (bytes rest : List Byte) (i : Instr), decode d index bytes = .ok (i, rest) →
    encode i ++ rest = bytes ∧ i.wellFormed = true ∧ i.decoder = d ∧ i.placeable index = true

/-- Neither decoder has an illegal encoding: any bytes, as many as the longest operands take, begin with a command, and
fewer are at worst cut short (R84, the spec's own inference). -/
def Obligations.EveryByteIsACommand : Prop :=
  ∀ (d : Decoder) (index : Nat) (op : Byte) (rest : List Byte), d ≠ .none →
    (longestOperands ≤ rest.length + 1 → ∃ i after, decode d index (op :: rest) = .ok (i, after)) ∧
    ((∃ i after, decode d index (op :: rest) = .ok (i, after)) ∨ decode d index (op :: rest) = .error .truncated)

/-- The first byte alone fixes a command's total length (R70). -/
def Obligations.FirstByteFixesLength : Prop :=
  ∀ (d : Decoder) (index : Nat) (op : Byte) (xs ys xs' ys' : List Byte) (i j : Instr),
    decode d index (op :: xs) = .ok (i, xs') → decode d index (op :: ys) = .ok (j, ys') →
    i.size = j.size ∧ i.literals = j.literals ∧ i.fullLength = j.fullLength

/-- The CCD's opcode map (R72) with the fields of each format (R74 to R78), as numbers. -/
def Obligations.CopyCodeFormats : Prop :=
  ∀ (index : Nat) (op b1 b2 b3 b4 : Byte) (rest : List Byte), ¬(index = 0 ∧ op = 0x00#8) →
    (op.toNat < 0x80 → ∃ dist : BitVec 12, dist.toNat = op.toNat % 16 * 256 + b1.toNat ∧
      decode .copyCode index (op :: b1 :: rest) = .ok (.sbr (op.toNat / 16 + 3) dist, rest)) ∧
    (op.toNat = 0x80 → decode .copyCode index (op :: rest) = .ok (.endMark, rest)) ∧
    (0x81 ≤ op.toNat ∧ op.toNat ≤ 0xBF →
      decode .copyCode index (op :: rest) = .ok (.lit (op.toNat - 0x80), rest)) ∧
    (0xC0 ≤ op.toNat ∧ op.toNat ≤ 0xFD → ∃ dat : Half, dat.toNat = b2.toNat * 256 + b1.toNat ∧
      decode .copyCode index (op :: b1 :: b2 :: rest) = .ok (.mcp (op.toNat - 0xC0 + 3) dat, rest)) ∧
    (op.toNat = 0xFE → ∃ n : Half, n.toNat = b2.toNat * 256 + b1.toNat ∧
      decode .copyCode index (op :: b1 :: b2 :: b3 :: rest) = .ok (.fill n b3, rest)) ∧
    (op.toNat = 0xFF → ∃ n dat : Half, n.toNat = b2.toNat * 256 + b1.toNat ∧ dat.toNat = b4.toNat * 256 + b3.toNat ∧
      decode .copyCode index (op :: b1 :: b2 :: b3 :: b4 :: rest) = .ok (.vcp n dat, rest))

/-- The RLD's control-byte map (R80) with the fields of each format (R81 to R83), as numbers. -/
def Obligations.RunLengthFormats : Prop :=
  ∀ (index : Nat) (k b1 b2 b3 : Byte) (rest : List Byte),
    (0x01 ≤ k.toNat ∧ k.toNat ≤ 0x7F → decode .runLength index (k :: rest) = .ok (.rlit k.toNat, rest)) ∧
    (0x80 ≤ k.toNat → decode .runLength index (k :: b1 :: rest) = .ok (.rrep (256 - k.toNat) b1, rest)) ∧
    (k.toNat = 0x00 → ∃ n : Half, n.toNat = b1.toNat * 256 + b2.toNat ∧
      decode .runLength index (k :: b1 :: b2 :: b3 :: rest) = .ok (.rxt n b3, rest))

/-- A byte is the REL prefix exactly when it is 0x00 at index 0 of a CCD job (R79; R73 and R84
are the spec's own inference). -/
def Obligations.RelPrefixPosition : Prop :=
  ∀ (d : Decoder) (index : Nat) (bytes rest : List Byte),
    decode d index bytes = .ok (.rel, rest) ↔ d = .copyCode ∧ index = 0 ∧ bytes = 0x00#8 :: rest

/-- A command line the assembler accepts is read back by the decoder at its position, with its literal bytes after it,
and the rest of the program follows it (R70, R86). Lines as data, and the refusal of the other decoder's commands, on
which this rests, are the model's reading of R86 (log 12). -/
def Obligations.AssembledLineIsReadBack : Prop :=
  ∀ (d : Decoder) (index : Nat) (i : Instr) (literals : List Byte) (p : List Line) (bytes : List Byte),
    assembleFrom d index (.cmd i literals :: p) = .ok bytes →
    ∃ more, decode d index bytes = .ok (i, literals ++ more) ∧
      assembleFrom d (index + i.fullLength) p = .ok more

/-- An assembled CCD stream whose first line is a command other than REL does not begin with 0x00 (R86; R224 is the
spec's own inference). A first line of raw bytes may begin with 0x00: the model's reading of R86 (log 12). -/
def Obligations.AbsoluteStreamNeverReadsAsRel : Prop :=
  ∀ (i : Instr) (literals : List Byte) (p : List Line) (bytes : List Byte), i ≠ .rel →
    assemble .copyCode (.cmd i literals :: p) = .ok bytes → bytes.head? ≠ some 0x00#8

/-! ### The shared primitives -/

/-- raise Stop(r) does exactly this: REASON <- r and PHASE <- DONE; everything else is as it was (R189). -/
def Obligations.RaiseStopEffect : Prop :=
  ∀ (r : Reason) (s t : State), raiseStop r s = t →
    t.reason = r ∧ t.phase = .done ∧
    t.inMem = s.inMem ∧ t.outMem = s.outMem ∧ t.outSize = s.outSize ∧ t.inPos = s.inPos ∧ t.writePos = s.writePos ∧
    t.mode = s.mode ∧ t.decoder = s.decoder ∧ t.compType = s.compType ∧ t.inLen = s.inLen ∧
    t.targetSize = s.targetSize ∧ t.engine = s.engine ∧ t.resets = s.resets ∧ t.draws = s.draws ∧ t.host = s.host ∧
    t.hostData = s.hostData

/-- Fetch8 (R101): past the end it stops with TRUNCATED_INPUT and moves nothing; else it returns byte IN_POS and IN_POS
advances by 1, without wrapping. -/
def Obligations.Fetch8Effect : Prop :=
  ∀ s : State,
    (s.inLen.toNat ≤ s.inPos.toNat → fetch8 s = .stopped (raiseStop .truncatedInput s)) ∧
    (s.inPos.toNat < s.inLen.toNat → ∃ t, fetch8 s = .ok (s.inByte s.inPos.toNat) t ∧
      t.inPos.toNat = s.inPos.toNat + 1 ∧ t = { s with inPos := t.inPos })

/-- Fetch16LE (R102): two bytes, the first in bits 7:0; one byte left is consumed and the second fetch stops with IN_POS
= IN_LEN. -/
def Obligations.LittleEndianFetch : Prop :=
  ∀ s : State, s.inPos.toNat ≤ s.inLen.toNat →
    (s.inPos.toNat + 2 ≤ s.inLen.toNat → ∃ t,
      fetch16LE s = .ok ((s.inByte (s.inPos.toNat + 1)).toNat * 256 + (s.inByte s.inPos.toNat).toNat) t ∧
      t.inPos.toNat = s.inPos.toNat + 2 ∧ t = { s with inPos := t.inPos }) ∧
    (s.inLen.toNat < s.inPos.toNat + 2 →
      fetch16LE s = .stopped (raiseStop .truncatedInput { s with inPos := s.inLen }))

/-- Fetch16BE (R151): two bytes, the first in bits 15:8; one byte left is consumed and the second fetch stops with
IN_POS = IN_LEN. -/
def Obligations.BigEndianFetch : Prop :=
  ∀ s : State, s.inPos.toNat ≤ s.inLen.toNat →
    (s.inPos.toNat + 2 ≤ s.inLen.toNat → ∃ t,
      fetch16BE s = .ok ((s.inByte s.inPos.toNat).toNat * 256 + (s.inByte (s.inPos.toNat + 1)).toNat) t ∧
      t.inPos.toNat = s.inPos.toNat + 2 ∧ t = { s with inPos := t.inPos }) ∧
    (s.inLen.toNat < s.inPos.toNat + 2 →
      fetch16BE s = .stopped (raiseStop .truncatedInput { s with inPos := s.inLen }))

/-- Put (R103), with OUT ready: a full OUT stops it with OUTPUT_EXHAUSTED and nothing else; else the byte is written at
WRITE_POS, which advances by 1, and every other byte and field is unchanged. -/
def Obligations.PutEffect : Prop :=
  ∀ (v : Byte) (s : State), s.OutReady →
    (s.room = 0 → put v s = .stopped (raiseStop .outputExhausted s)) ∧
    (0 < s.room → ∃ t, put v s = .ok () t ∧ Wrote s t 0 1 (fun _ => v) none ∧ t.OutReady)

/-- Resolve (R107): WRITE_POS - dat in Relative mode, as an exact integer that may be negative, and dat in Absolute
mode; the machine's and the pseudocode's are one. -/
def Obligations.ResolveSource : Prop :=
  ∀ (dat : Half) (s : State), resolve dat s = resolveWord dat.toNat s ∧
    (s.mode = .relative → resolve dat s + dat.toNat = s.writePos.toNat) ∧
    (s.mode = .absolute → resolve dat s = dat.toNat)

/-! ### The commands: result, frame and completion -/

/-- REL (R108): one byte is consumed, MODE becomes Relative, everything else is unchanged. -/
def Obligations.RelSelectsRelative : Prop :=
  ∀ s : State, s.inPos.toNat + 1 ≤ s.inLen.toNat → ∃ t, exec .rel s = .next t ∧
    t.mode = .relative ∧ t.inPos.toNat = s.inPos.toNat + 1 ∧ t = { s with mode := t.mode, inPos := t.inPos }

/-- SBR (R110): two bytes consumed, then CopyBack from WRITE_POS - dist in both modes; BAD_REFERENCE exactly when dist
is 0 or greater than WRITE_POS. -/
def Obligations.SbrCopiesBack : Prop :=
  ∀ (count : Nat) (dist : BitVec 12) (s : State), s.Ready 2 → ∃ t, exec (.sbr count dist) s = .next t ∧
    CopiedBack s t 2 ((s.writePos.toNat : Int) - dist.toNat) count ∧
    (count ≠ 0 → s.room ≠ 0 → s.reason ≠ .badReference →
      (t.reason = .badReference ↔ dist = 0 ∨ s.writePos.toNat < dist.toNat))

/-- LIT (R111): the opcode consumed, then CopyLiteral. -/
def Obligations.LitCopies : Prop :=
  ∀ (count : Nat) (s : State), s.Ready 1 → ∃ t, exec (.lit count) s = .next t ∧ CopiedLiteral s t 1 count

/-- END (R112): the opcode consumed, nothing written, Stop(END_MARKER) always. -/
def Obligations.EndMarkStops : Prop :=
  ∀ s : State, s.inPos.toNat + 1 ≤ s.inLen.toNat → ∃ t, exec .endMark s = .next t ∧
    Wrote s t 1 0 (fun _ => 0) (some .endMarker) ∧ t.outMem = s.outMem

/-- MCP (R113): three bytes consumed, then CopyBack from Resolve(dat) with WRITE_POS as at the command's start. -/
def Obligations.McpCopiesBack : Prop :=
  ∀ (count : Nat) (dat : Half) (s : State), s.Ready 3 → ∃ t, exec (.mcp count dat) s = .next t ∧
    CopiedBack s t 3 (if s.mode = .relative then (s.writePos.toNat : Int) - dat.toNat else dat.toNat) count

/-- FILL (R114): four bytes consumed, then n bytes v as far as OUT takes them. -/
def Obligations.FillWrites : Prop :=
  ∀ (n : Half) (v : Byte) (s : State), s.Ready 4 → ∃ t, exec (.fill n v) s = .next t ∧ Filled s t 4 n.toNat v

/-- VCP (R115): five bytes consumed, then CopyBack of n bytes from Resolve(dat), clamped at TARGET_SIZE; n = 0 writes
nothing and checks nothing. -/
def Obligations.VcpCopiesBack : Prop :=
  ∀ (n dat : Half) (s : State), s.Ready 5 → ∃ t, exec (.vcp n dat) s = .next t ∧
    CopiedBack s t 5 (if s.mode = .relative then (s.writePos.toNat : Int) - dat.toNat else dat.toNat) n.toNat

/-- RLIT (R153): the control byte consumed, then CopyLiteral. -/
def Obligations.RlitCopies : Prop :=
  ∀ (count : Nat) (s : State), s.Ready 1 → ∃ t, exec (.rlit count) s = .next t ∧ CopiedLiteral s t 1 count

/-- RREP (R154): two bytes consumed, then n bytes v as far as OUT takes them. -/
def Obligations.RrepWrites : Prop :=
  ∀ (n : Nat) (v : Byte) (s : State), s.Ready 2 → ∃ t, exec (.rrep n v) s = .next t ∧ Filled s t 2 n v

/-- RXT (R155): four bytes consumed, then n bytes v as far as OUT takes them. -/
def Obligations.RxtWrites : Prop :=
  ∀ (n : Half) (v : Byte) (s : State), s.Ready 4 → ∃ t, exec (.rxt n v) s = .next t ∧ Filled s t 4 n.toNat v

/-- A back-reference reads the bytes it has itself written: after MCP, VCP or SBR, the byte at WRITE_POS + i equals the
byte at source + i of the SAME, new buffer, for every byte it wrote (R61, R106, R223). -/
def Obligations.CopiesReadTheirOwnOutput : Prop :=
  ∀ (i : Instr) (src : Nat) (s t : State), s.Ready i.size → src < s.writePos.toNat →
    ((∃ count dist, i = .sbr count dist ∧ (src : Int) = distanceSource dist s) ∨
      (∃ count dat, i = .mcp count dat ∧ (src : Int) = resolve dat s) ∨
      (∃ n dat, i = .vcp n dat ∧ (src : Int) = resolve dat s)) →
    exec i s = .next t →
    ∀ k, s.writePos.toNat + k < t.writePos.toNat → t.outByte (s.writePos.toNat + k) = t.outByte (src + k)

/-- The frame of every command, in every state: IN, OUT's size, DECODER, the job inputs and the model's own fields are
unchanged, MODE too but by REL, and so is every byte of OUT that does not lie between the old and the new WRITE_POS
(R51, R52, R119). -/
def Obligations.EveryCommandsFrame : Prop :=
  ∀ (i : Instr) (s t : State), exec i s = .next t →
    t.inMem = s.inMem ∧ (∀ a, t.inByte a = s.inByte a) ∧ t.outSize = s.outSize ∧ t.decoder = s.decoder ∧
    t.compType = s.compType ∧ t.inLen = s.inLen ∧ t.targetSize = s.targetSize ∧ t.engine = s.engine ∧
    t.resets = s.resets ∧
    t.draws = s.draws ∧ t.host = s.host ∧ t.hostData = s.hostData ∧
    (i ≠ .rel → t.mode = s.mode) ∧
    s.writePos.toNat ≤ t.writePos.toNat ∧
    ∀ a, a < s.writePos.toNat ∨ t.writePos.toNat ≤ a → t.outByte a = s.outByte a

/-- MODE changes only how MCP and VCP resolve dat: every other command but REL does the same in both modes (R110;
R85 is the spec's own inference). -/
def Obligations.ModeOnlyResolvesDat : Prop :=
  ∀ (i : Instr) (m : Mode) (s t : State), i ≠ .rel → (∀ count dat, i ≠ .mcp count dat) → (∀ n dat, i ≠ .vcp n dat) →
    exec i s = .next t → exec i (setMode m s) = .next (setMode m t)

/-! ### The engine's step -/

/-- A step of a running job, past the two checks, is `exec` of the command that the bytes at IN_POS decode to. The
window of bytes and that the meaning itself consumes the command's bytes are the model's form (logs 8, 9); so is the
case of REL before an unresolved prefix, a state of no job (log 7), where R20 has mode resolution in START. -/
def Obligations.StepRunsDecodedInstruction : Prop :=
  ∀ (s : State) (i : Instr) (rest : List Byte), s.Running → s.writePos ≠ s.targetSize → s.inPos ≠ s.inLen →
    decode s.decoder s.inPos.toNat (operandWindow s) = .ok (i, rest) → step s = exec i s

/-- When the bytes of IN at IN_POS are the encoding of a well-formed command of the selected decoder, all of them before
IN_LEN, the step is `exec` of that command (R20, R70; logs 8, 9). The case of REL, a state of no job, is the model's
choice (log 7), where R20 has mode resolution in START. -/
def Obligations.StepRunsEncodedBytes : Prop :=
  ∀ (s : State) (i : Instr), s.Running → s.writePos ≠ s.targetSize →
    i.wellFormed = true → i.decoder = s.decoder → i.placeable s.inPos.toNat = true →
    s.inPos.toNat + i.size ≤ s.inLen.toNat →
    (∀ k, k < i.size → (encode i)[k]? = some (s.inByte (s.inPos.toNat + k))) →
    step s = exec i s

/-- At the top of a step a full OUT stops the job with OUTPUT_EXHAUSTED, whatever the stream holds; otherwise the end of
the stream stops it with INPUT_END (R184, R185, R188 item 2). -/
def Obligations.StepTopOrder : Prop :=
  ∀ s : State, s.Running →
    (s.writePos = s.targetSize → step s = .next (raiseStop .outputExhausted s)) ∧
    (s.writePos ≠ s.targetSize → s.inPos = s.inLen → step s = .next (raiseStop .inputEnd s))

/-- A command cut short in its operands, whose operand bytes reach past IN_LEN, consumes what is there, writes nothing,
and stops with TRUNCATED_INPUT and IN_POS = IN_LEN (R101, R183). -/
def Obligations.OperandTruncation : Prop :=
  ∀ (s : State) (i : Instr), s.Running → s.decoder ≠ .none → s.writePos ≠ s.targetSize →
    s.inPos.toNat < s.inLen.toNat →
    i.wellFormed = true → i.decoder = s.decoder → i.placeable s.inPos.toNat = true →
    s.inLen.toNat < s.inPos.toNat + i.size →
    (encode i)[0]? = some (s.inByte s.inPos.toNat) →
    ∃ t, step s = .next t ∧ Wrote s t (s.ahead 0) 0 (fun _ => 0) (some .truncatedInput) ∧ t.inPos = s.inLen ∧
      t.outMem = s.outMem

/-- A step of a CCD job is CCD_Step of R109, byte by byte with its commands R110 to R115, in every state but one that
stands before an unresolved REL prefix (no such job: R108); and a step that returns leaves PHASE = BUSY. -/
def Obligations.CcdStepIsPseudocode : Prop :=
  ∀ s : State, s.Running → s.decoder = .copyCode → ¬(s.inPos = 0 ∧ s.inLen ≠ 0 ∧ s.inByte 0 = 0x00#8) →
    step s = (ccdStep s).outcome ∧ ∀ t, ccdStep s = .ok () t → t.phase = .busy

/-- A step of an RLD job is RLD_Step of R152, byte by byte with its commands R153 to R155, in every state; and a step
that returns leaves PHASE = BUSY. -/
def Obligations.RldStepIsPseudocode : Prop :=
  ∀ s : State, s.Running → s.decoder = .runLength →
    step s = (rldStep s).outcome ∧ ∀ t, rldStep s = .ok () t → t.phase = .busy

/-! ### Jobs -/

/-- A write of 1 to CTRL.START while not BUSY (R40, R108): refused beyond a capacity (before anything else: log 3);
else the cursors, MODE and REASON are cleared, and an unsupported code ends the job at once, while a decoding job gets a
zero OUT of TARGET_SIZE bytes (log 5), its decoder, PHASE = BUSY and, in the CCD, the mode its first byte selects. -/
def Obligations.StartBeginsJob : Prop :=
  ∀ (v : Word) (s : State), s.phase ≠ .busy → v.getLsbD 0 = true →
    act (.writeReg .ctrl v) s =
      if Config.inCapacity.toNat < s.inLen.toNat ∨ Config.outCapacity.toNat < s.targetSize.toNat then
        .refused .startBeyondCapacity
      else
        match Config.compressionTypeMap s.compType with
        | .unsupported =>
          .next { s with
            inPos := 0, writePos := 0, mode := .absolute, decoder := .none,
            reason := .unsupportedFormat, phase := .done }
        | .copyCode =>
          .next { s with
            inPos := if s.inLen ≠ 0 ∧ s.inByte 0 = 0x00#8 then 1 else 0
            writePos := 0
            mode := if s.inLen ≠ 0 ∧ s.inByte 0 = 0x00#8 then .relative else .absolute
            reason := .none, phase := .busy, decoder := .copyCode, outMem := [], outSize := s.targetSize }
        | .runLength =>
          .next { s with
            inPos := 0, writePos := 0, mode := .absolute,
            reason := .none, phase := .busy, decoder := .runLength, outMem := [], outSize := s.targetSize }

/-- An UNSUPPORTED_FORMAT job (R182): DONE at once, the cursors 0, OUT neither zeroed nor written; and OUT is no part of
the result: a host read of it is a free draw (log 5). -/
def Obligations.UnsupportedFormatLeavesOut : Prop :=
  ∀ (v : Word) (s : State), s.phase ≠ .busy → v.getLsbD 0 = true →
    s.inLen.toNat ≤ Config.inCapacity.toNat → s.targetSize.toNat ≤ Config.outCapacity.toNat →
    Config.compressionTypeMap s.compType = .unsupported →
    ∃ t, act (.writeReg .ctrl v) s = .next t ∧
      t.reason = .unsupportedFormat ∧ t.phase = .done ∧ t.decoder = .none ∧ t.inPos = 0 ∧ t.writePos = 0 ∧
      t.mode = .absolute ∧ t.outMem = s.outMem ∧ t.inMem = s.inMem ∧
      ∀ a, hostReadOut a t = hostDraws 0xFF#32 t

/-- A write of 1 to CTRL.START while BUSY is ignored (R200), and so is every other host write (R34, R66): the running
job goes on as if the host had done nothing. -/
def Obligations.BusyIgnoresHostWrites : Prop :=
  ∀ s : State, s.phase = .busy →
    (∀ r v, act (.writeReg r v) s = .next s) ∧ (∀ a v, act (.writeIn a v) s = .next s)

/-- Host writes while not BUSY (R30): the job inputs take the value, the read-only registers ignore it, and writing CTRL
with bit 0 clear has no effect. -/
def Obligations.HostWritesRegisters : Prop :=
  ∀ (v : Word) (s : State), s.phase ≠ .busy →
    act (.writeReg .compType v) s = .next { s with compType := v.setWidth 16 } ∧
    act (.writeReg .inLen v) s = .next { s with inLen := v } ∧
    act (.writeReg .targetSize v) s = .next { s with targetSize := v } ∧
    act (.writeReg .status v) s = .next s ∧ act (.writeReg .inPos v) s = .next s ∧
    act (.writeReg .writePos v) s = .next s ∧
    (v.getLsbD 0 = false → act (.writeReg .ctrl v) s = .next s)

/-- A host read of a register changes nothing of the engine; while not BUSY the register's value is returned and nothing
is drawn; CTRL reads 0 and draws nothing, while BUSY too; while BUSY every other register reads as a free draw in the
bits that R30 lists for it; and a bit that R30 does not list reads 0 (R30, R34). That CTRL reads 0 while BUSY too, that
COMP_TYPE, IN_LEN and TARGET_SIZE are free draws there, and the count of draws are the model's (log 6). -/
def Obligations.HostReadsRegisters : Prop :=
  ∀ (r : HostReg) (s : State), ∃ t, act (.readReg r) s = .next t ∧
    t = { s with hostData := t.hostData, draws := t.draws } ∧
    (r = .ctrl → t.hostData = 0 ∧ t.draws = s.draws) ∧
    (s.phase ≠ .busy → t.hostData = registerValue r s ∧ t.draws = s.draws) ∧
    (s.phase = .busy → r ≠ .ctrl →
      t.hostData = Config.freeRead s.engine s.draws &&& r.listedBits ∧ t.draws = s.draws + 1) ∧
    t.hostData &&& ~~~r.listedBits = 0

/-- STATUS holds PHASE in bits 1:0, REASON in 4:2, MODE in 5, DECODER in 7:6 and 0 above (R30), each under the number
that R27, R181, R26 and R29 give it. -/
def Obligations.StatusFields : Prop :=
  ∀ s : State,
    ((statusWord s).extractLsb' 0 2).toNat = (match s.phase with | .idle => 0 | .busy => 1 | .done => 2) ∧
    ((statusWord s).extractLsb' 2 3).toNat =
      (match s.reason with
      | .none => 0 | .endMarker => 1 | .outputExhausted => 2 | .inputEnd => 3 | .truncatedInput => 4
      | .badReference => 5 | .unsupportedFormat => 6) ∧
    ((statusWord s).extractLsb' 5 1).toNat = (match s.mode with | .absolute => 0 | .relative => 1) ∧
    ((statusWord s).extractLsb' 6 2).toNat =
      (match s.decoder with | .none => 0 | .copyCode => 1 | .runLength => 2) ∧
    (statusWord s).extractLsb' 8 24 = 0

/-- A host read of OUT, in every state and at every index, changes nothing of the engine (R34, I-5). After a decoding
job, inside OUT's size, it returns OUT's byte and draws nothing (R35, R66); everywhere else it is a free draw of eight
bits (logs 5, 6). -/
def Obligations.HostReadsResult : Prop :=
  ∀ (a : Word) (s : State), ∃ t, act (.readOut a) s = .next t ∧
    t = { s with hostData := t.hostData, draws := t.draws } ∧ t.hostData.toNat < 256 ∧
    (s.phase = .done → s.decoder ≠ .none → a.toNat < s.outSize.toNat →
      t.hostData.toNat = (s.outByte a.toNat).toNat ∧ t.draws = s.draws) ∧
    (s.phase ≠ .done ∨ s.decoder = .none ∨ s.outSize.toNat ≤ a.toNat →
      t.hostData = Config.freeRead s.engine s.draws &&& 0xFF#32 ∧ t.draws = s.draws + 1)

/-- While not BUSY the host loads a byte of IN: that byte takes the value, every other byte and field is unchanged
(R66). -/
def Obligations.HostLoadsIn : Prop :=
  ∀ (a : Word) (v : Byte) (s : State), s.phase ≠ .busy → Memory.wf .inStream s.inMem →
    ∃ t, act (.writeIn a v) s = .next t ∧ t.inByte a.toNat = v ∧
      (∀ b, b ≠ a.toNat → t.inByte b = s.inByte b) ∧ Memory.wf .inStream t.inMem ∧
      t = { s with inMem := t.inMem }

/-- IDLE and DONE are quiet: with nothing from the host, a step changes nothing (R195, R190). -/
def Obligations.QuietWhenNotBusy : Prop :=
  ∀ s : State, s.phase ≠ .busy → s.host = [] → step s = .next s

/-- The host's actions come in their order, one a step, and an engine turn is a step of the engine (log 1). -/
def Obligations.HostActionsInOrder : Prop :=
  ∀ (e : HostEvent) (rest : List HostEvent) (s : State), s.host = e :: rest →
    step s = act e { s with host := rest } ∧
    (e = .engineTurn → s.phase = .busy → step s = busyStep { s with host := rest })

/-- Exactly one code maps to COPY_CODE and exactly one to RUN_LENGTH, whatever the parameter (R9). -/
def Obligations.CompressionMapOneCodeEach : Prop :=
  (∃! code, Config.compressionTypeMap code = .copyCode) ∧ ∃! code, Config.compressionTypeMap code = .runLength

/-! ### Whole-machine rules -/

/-- The invariant holds after reset. -/
def Obligations.InvariantAtReset : Prop := State.reset.Inv

/-- Every step keeps the invariant: the memories' canonical form, the cursors inside their bounds, OUT zero from
WRITE_POS on, and PHASE, REASON, MODE and DECODER as the rules allow them together (R26 to R29, R182; R38 and R156 are
the spec's own inference; the canonical form is the model's, logs 4, 5). -/
def Obligations.InvariantKept : Prop := ∀ s t : State, s.Inv → step s = .next t → t.Inv

/-- The engine never faults (R180; R59 is the spec's own inference): from a state of the invariant a step answers a next
state, or the host has made a START beyond a capacity, which the model refuses (R40, log 3). -/
def Obligations.InvariantExcludesFaults : Prop :=
  ∀ s : State, s.Inv →
    (∃ t, step s = .next t) ∨
    (step s = .refused .startBeyondCapacity ∧ s.phase ≠ .busy ∧ ∃ v rest, s.host = .writeReg .ctrl v :: rest)

/-- A step of a running job (R39, R38, R117, the spec's own inference): the cursors never decrease and stay in bounds; a
step past the two checks at its top consumes at least one byte, whether or not it stops (END, BAD_REFERENCE and a
command cut short included), and so does every step after which the job still runs; at most 65535 bytes are written,
and the bytes of OUT written before stay. -/
def Obligations.CursorProgress : Prop :=
  ∀ s t : State, s.Inv → s.Running → step s = .next t →
    s.inPos.toNat ≤ t.inPos.toNat ∧ s.writePos.toNat ≤ t.writePos.toNat ∧
    (s.writePos ≠ s.targetSize → s.inPos ≠ s.inLen → s.inPos.toNat < t.inPos.toNat) ∧
    (t.phase = .busy → s.inPos.toNat < t.inPos.toNat) ∧
    t.inPos.toNat ≤ t.inLen.toNat ∧ t.writePos.toNat ≤ t.targetSize.toNat ∧
    t.writePos.toNat ≤ s.writePos.toNat + 65535 ∧
    ∀ a, a < s.writePos.toNat → t.outByte a = s.outByte a

/-- Every job ends: a running job is DONE after at most IN_LEN - IN_POS + 1 steps (R180; R117 and R157 are the
spec's own inference). -/
def Obligations.EveryJobEnds : Prop :=
  ∀ s : State, s.Inv → s.Running →
    ∃ k t, k ≤ s.ahead 0 + 1 ∧ Host.Core.run Sys2Proof.core k s = .next t ∧ t.phase = .done

/-- The whole-job functions CCD_Job and RLD_Job (R116, R156: the spec's own inference from R40, R109 and R152): started
from any state of the invariant, with nothing from the host, each answers a DONE state, the one that the machine reaches
from the START's state in IN_LEN + 1 steps. -/
def Obligations.WholeJobIsTheMachinesRun : Prop :=
  ∀ s : State, s.Inv → s.host = [] →
    (∃ t u, beginJob .copyCode s = .next t ∧ ccdJob s = .next u ∧ u.phase = .done ∧
      Host.Core.run Sys2Proof.core (s.inLen.toNat + 1) t = .next u) ∧
    ∃ t u, beginJob .runLength s = .next t ∧ rldJob s = .next u ∧ u.phase = .done ∧
      Host.Core.run Sys2Proof.core (s.inLen.toNat + 1) t = .next u

/-- A job's result depends only on COMP_TYPE, IN_LEN, TARGET_SIZE and IN[0 .. IN_LEN-1] (R37, the spec's own
inference): two engines with the same
inputs, whatever they did before, start alike, and after any number of steps agree on everything the result holds. -/
def Obligations.JobsDependOnlyOnInputs : Prop :=
  ∀ (s t s' : State) (v : Word), s.phase ≠ .busy → t.phase ≠ .busy → s.host = [] → t.host = [] →
    v.getLsbD 0 = true →
    s.compType = t.compType → s.inLen = t.inLen → s.targetSize = t.targetSize →
    (∀ a, a < s.inLen.toNat → s.inByte a = t.inByte a) →
    act (.writeReg .ctrl v) s = .next s' →
    ∃ t', act (.writeReg .ctrl v) t = .next t' ∧
      s'.phase = t'.phase ∧ s'.reason = t'.reason ∧ s'.decoder = t'.decoder ∧ s'.mode = t'.mode ∧
      s'.inPos = t'.inPos ∧ s'.writePos = t'.writePos ∧
      (s'.decoder ≠ .none → ∀ k s'', Host.Core.run Sys2Proof.core k s' = .next s'' →
        ∃ t'', Host.Core.run Sys2Proof.core k t' = .next t'' ∧ SameJob s'' t'')

/-- An RLD job never stops with END_MARKER or BAD_REFERENCE and never changes MODE (R150, R26; R156 is the spec's
own inference). -/
def Obligations.RunLengthReasons : Prop :=
  ∀ s t : State, s.Running → s.decoder = .runLength → s.reason = .none → step s = .next t →
    t.mode = s.mode ∧
    (t.phase = .busy ∧ t.reason = .none ∨
      t.phase = .done ∧ (t.reason = .outputExhausted ∨ t.reason = .inputEnd ∨ t.reason = .truncatedInput))

/-- When a running job ends, its OUT is zero from WRITE_POS up to its size, which is TARGET_SIZE, and REASON is 1 to 5
(R35, R100, R150, R181; R38 is the spec's own inference). -/
def Obligations.ResultIsZeroPadded : Prop :=
  ∀ s t : State, s.Inv → s.Running → step s = .next t → t.phase = .done →
    (∀ k, t.writePos.toNat ≤ k → k < t.targetSize.toNat → t.outByte k = 0) ∧ t.outSize = t.targetSize ∧
    1 ≤ t.reason.code ∧ t.reason.code ≤ 5

/-- Engines share nothing: a step of one leaves every other as it was, and is a step of its own state alone (R67, R194).
The platform keeps its N_ENGINES engines and their numbers (R9, log 15). -/
def Obligations.EnginesIndependent : Prop :=
  ∀ (k : Nat) (p q : Platform), Platform.stepEngine k p = .next q →
    (p.wf → q.wf) ∧ (∀ j, j ≠ k → q[j]? = p[j]?) ∧
    ∀ s, p[k]? = some s → ∃ t, step s = .next t ∧ q[k]? = some t
end

