-- ==== Sys2Proof/Laws/Decode.lean ====
section
/-!
SUPPORT. The fields of the encodings as numbers, and what a successful decoding takes from its bytes.
-/

namespace Sys2Proof

/-! ### Fields as numbers -/

theorem append_byte_toNat {m : Nat} (hi : BitVec m) (lo : Byte) : (hi ++ lo).toNat = hi.toNat * 256 + lo.toNat := by
  rw [BitVec.toNat_append]
  have := Nat.two_pow_add_eq_or_of_lt lo.isLt hi.toNat
  rw [Nat.shiftLeft_eq, ← Nat.mul_comm, ← this]

/-- Bit 7 of a byte (R10) is clear below 0x80. -/
theorem bit7_clear_iff : ∀ op : Byte, (op.getLsbD 7 = false ↔ op.toNat < 128) := by decide +kernel

theorem bit6_clear_iff : ∀ op : Byte, (op.getLsbD 6 = false ↔ op.toNat / 64 % 2 = 0) := by decide +kernel

theorem lowSix_eq (op : Byte) : lowSix op = op.toNat % 64 := by
  simp [lowSix, BitVec.extractLsb'_toNat]

theorem sbrCount_eq (op : Byte) : sbrCount op = op.toNat / 16 % 8 + 3 := by
  simp [sbrCount, BitVec.extractLsb'_toNat, Nat.shiftRight_eq_div_pow]

theorem sbrDist_toNat (op b : Byte) : (sbrDist op b).toNat = op.toNat % 16 * 256 + b.toNat := by
  rw [sbrDist, append_byte_toNat]; simp

theorem wordLE_toNat (first second : Byte) : (wordLE first second).toNat = second.toNat * 256 + first.toNat :=
  append_byte_toNat second first

theorem wordBE_toNat (first second : Byte) : (wordBE first second).toNat = first.toNat * 256 + second.toNat :=
  append_byte_toNat first second

/-- sext_8 (R11). -/
theorem toInt_eq_sext8 (k : Byte) : k.toInt = if k.toNat < 128 then (k.toNat : Int) else k.toNat - 256 := by
  rw [BitVec.toInt_eq_toNat_cond]; split <;> split <;> omega

theorem rrepCount_eq {k : Byte} (h : 128 ≤ k.toNat) : rrepCount k = 256 - k.toNat := by
  have := k.isLt
  rw [rrepCount, toInt_eq_sext8]; split <;> omega

theorem toByte_toNat (n : Nat) : (toByte n).toNat = n % 256 := BitVec.toNat_ofNat n 8

/-! ### What a decoding takes -/

/-- A command read by the CCD's decoder takes as many bytes as its size and belongs to the CCD. -/
theorem decodeCopyCode_size {index : Nat} {bytes rest : List Byte} {i : Instr}
    (h : decodeCopyCode index bytes = .ok (i, rest)) :
    bytes.length = i.size + rest.length ∧ i.decoder = .copyCode := by
  unfold decodeCopyCode at h
  split at h
  · cases h
  · repeat' split at h
    all_goals first
      | (cases h; done)
      | (cases h; simp [Instr.size, Instr.decoder]; try omega)

/-- A command read by the RLD's decoder takes as many bytes as its size and belongs to the RLD. -/
theorem decodeRunLength_size {bytes rest : List Byte} {i : Instr}
    (h : decodeRunLength bytes = .ok (i, rest)) :
    bytes.length = i.size + rest.length ∧ i.decoder = .runLength := by
  unfold decodeRunLength at h
  split at h
  · cases h
  · repeat' split at h
    all_goals first
      | (cases h; done)
      | (cases h; simp [Instr.size, Instr.decoder]; try omega)

/-- A command takes as many bytes as its size and belongs to the selected decoder. -/
theorem decode_size {d : Decoder} {index : Nat} {bytes rest : List Byte} {i : Instr}
    (h : decode d index bytes = .ok (i, rest)) :
    bytes.length = i.size + rest.length ∧ i.decoder = d := by
  cases d with
  | none => cases h
  | copyCode => exact decodeCopyCode_size h
  | runLength => exact decodeRunLength_size h

end Sys2Proof
end

