-- ==== Sys2Proof/Laws/Memory.lean ====
section
/-!
SUPPORT. The laws of the byte memories: a read after a write, and the canonical form that every write keeps.
-/

namespace Sys2Proof.Machine

/-! ### Listed cells -/

theorem Memory.findCell_setCell (m : Memory) (a b : Nat) (v : Byte)
    (h : m.Pairwise (fun c d => c.1 < d.1)) :
    Memory.findCell (Memory.setCell m a v) b = if a = b then some v else Memory.findCell m b := by
  induction m with
  | nil => simp [Memory.setCell, Memory.findCell]
  | cons c m ih =>
    obtain ⟨k, w⟩ := c
    have ih := ih (List.pairwise_cons.1 h).2
    simp only [Memory.setCell, Memory.findCell]
    split
    · simp [Memory.findCell]
    · split
      · subst_vars; simp only [Memory.findCell]; grind
      · simp only [Memory.findCell, ih]; grind

theorem Memory.findCell_setCell_other (m : Memory) {a b : Nat} (v : Byte) (h : a ≠ b) :
    Memory.findCell (Memory.setCell m a v) b = Memory.findCell m b := by
  induction m with
  | nil => simp [Memory.setCell, Memory.findCell, h]
  | cons c m ih =>
    obtain ⟨k, w⟩ := c
    simp only [Memory.setCell]
    split
    · simp [Memory.findCell, h]
    · split
      · subst_vars; simp [Memory.findCell, h]
      · simp [Memory.findCell, ih]

theorem Memory.findCell_dropCell (m : Memory) (a b : Nat) :
    Memory.findCell (Memory.dropCell m a) b = if a = b then none else Memory.findCell m b := by
  induction m with
  | nil => simp [Memory.dropCell, Memory.findCell]
  | cons c m ih =>
    obtain ⟨k, w⟩ := c
    simp only [Memory.dropCell, Memory.findCell]
    split
    · rw [ih]; grind
    · simp only [Memory.findCell, ih]; grind

theorem Memory.mem_setCell {m : Memory} {a : Nat} {v : Byte} {c : Host.Cell}
    (h : c ∈ Memory.setCell m a v) : c = (a, v) ∨ c ∈ m := by
  induction m with
  | nil => simpa [Memory.setCell] using h
  | cons d m ih =>
    obtain ⟨k, w⟩ := d
    simp only [Memory.setCell] at h
    split at h
    · simpa using h
    · split at h
      · rcases List.mem_cons.1 h with h | h <;> simp [h]
      · rcases List.mem_cons.1 h with h | h
        · simp [h]
        · rcases ih h with h | h <;> simp [h]

theorem Memory.mem_dropCell {m : Memory} {a : Nat} {c : Host.Cell}
    (h : c ∈ Memory.dropCell m a) : c ∈ m := by
  induction m with
  | nil => simp [Memory.dropCell] at h
  | cons d m ih =>
    obtain ⟨k, w⟩ := d
    simp only [Memory.dropCell] at h
    split at h
    · exact List.mem_cons_of_mem _ (ih h)
    · rcases List.mem_cons.1 h with h | h
      · simp [h]
      · exact List.mem_cons_of_mem _ (ih h)

/-- A cell written by `Memory.write` is the new one or one that was listed. -/
theorem Memory.mem_write {sp : Space} {m : Memory} {a : Nat} {v : Byte} {c : Host.Cell}
    (h : c ∈ Memory.write sp m a v) : c = (a, v) ∨ c ∈ m := by
  unfold Memory.write at h
  split at h
  · exact .inr (Memory.mem_dropCell h)
  · exact Memory.mem_setCell h

theorem Memory.rising_setCell {m : Memory} (a : Nat) (v : Byte)
    (h : m.Pairwise (fun c d => c.1 < d.1)) :
    (Memory.setCell m a v).Pairwise (fun c d => c.1 < d.1) := by
  induction m with
  | nil => simp [Memory.setCell]
  | cons c m ih =>
    obtain ⟨k, w⟩ := c
    obtain ⟨hk, hm⟩ := List.pairwise_cons.1 h
    simp only [Memory.setCell]
    split
    · refine List.pairwise_cons.2 ⟨?_, h⟩
      intro d hd
      rcases List.mem_cons.1 hd with rfl | hd
      · simpa
      · have := hk d hd; simp only at *; omega
    · split
      · subst_vars; exact List.pairwise_cons.2 ⟨hk, hm⟩
      · refine List.pairwise_cons.2 ⟨?_, ih hm⟩
        intro d hd
        rcases Memory.mem_setCell hd with rfl | hd
        · simp only; omega
        · exact hk d hd

theorem Memory.rising_dropCell {m : Memory} (a : Nat) (h : m.Pairwise (fun c d => c.1 < d.1)) :
    (Memory.dropCell m a).Pairwise (fun c d => c.1 < d.1) := by
  induction m with
  | nil => simp [Memory.dropCell]
  | cons c m ih =>
    obtain ⟨k, w⟩ := c
    obtain ⟨hk, hm⟩ := List.pairwise_cons.1 h
    simp only [Memory.dropCell]
    split
    · exact ih hm
    · exact List.pairwise_cons.2 ⟨fun d hd => hk d (Memory.mem_dropCell hd), ih hm⟩

/-! ### The memory operations keep the canonical form -/

theorem Memory.wf_nil (sp : Space) : Memory.wf sp [] := by simp [Memory.wf]

/-- The memories of the reset state are in canonical form. -/
theorem reset_memories_wf : Memory.wf .inStream State.reset.inMem ∧ Memory.wf .outBuffer State.reset.outMem :=
  ⟨Memory.wf_nil _, Memory.wf_nil _⟩

/-- A write keeps the canonical form. -/
theorem Memory.wf_write {sp : Space} {m : Memory} (a : Nat) (v : Byte) (h : Memory.wf sp m) :
    Memory.wf sp (Memory.write sp m a v) := by
  obtain ⟨hr, hn⟩ := h
  unfold Memory.write
  split
  · exact ⟨Memory.rising_dropCell a hr, fun c hc => hn c (Memory.mem_dropCell hc)⟩
  · refine ⟨Memory.rising_setCell a v hr, fun c hc => ?_⟩
    rcases Memory.mem_setCell hc with rfl | hc
    · simpa
    · exact hn c hc

/-- Writing a run of bytes keeps the canonical form. -/
theorem Memory.wf_writeBytes {sp : Space} (bytes : List Byte) (m : Memory) (a : Nat) (h : Memory.wf sp m) :
    Memory.wf sp (Memory.writeBytes sp m a bytes) := by
  induction bytes generalizing m a with
  | nil => exact h
  | cons v bytes ih => exact ih _ _ (Memory.wf_write a v h)

/-! ### Reading after writing -/

/-- A read after a write gives the byte written at its address, and what was there at every other. -/
theorem Memory.read_write {sp : Space} {m : Memory} (a b : Nat) (v : Byte) (h : Memory.wf sp m) :
    Memory.read sp (Memory.write sp m a v) b = if a = b then some v else Memory.read sp m b := by
  unfold Memory.write
  split
  · next hv =>
    by_cases hab : a = b <;> simp [Memory.read, Memory.findCell_dropCell, hab, ← hv]
  · rcases eq_or_ne a b with rfl | hab
    · simp [Memory.read, Memory.findCell_setCell m a a v h.1]
    · simp [Memory.read, Memory.findCell_setCell m a b v h.1, hab]

/-- A write leaves every other address alone, in any memory, in canonical form or not. -/
theorem Memory.read_write_other {sp : Space} {m : Memory} {a b : Nat} (v : Byte) (h : a ≠ b) :
    Memory.read sp (Memory.write sp m a v) b = Memory.read sp m b := by
  unfold Memory.write
  split
  · simp [Memory.read, Memory.findCell_dropCell, h]
  · simp [Memory.read, Memory.findCell_setCell_other _ v h]

/-- An address that no cell lists reads as an unlisted one. -/
theorem Memory.read_of_not_listed {sp : Space} {m : Memory} {a : Nat} (h : ∀ c ∈ m, c.1 ≠ a) :
    Memory.read sp m a = sp.unlisted := by
  have : Memory.findCell m a = none := by
    induction m with
    | nil => rfl
    | cons c m ih =>
      have hc := h c (by simp)
      simp only [Memory.findCell, hc, if_false]
      exact ih fun d hd => h d (List.mem_cons_of_mem _ hd)
  simp [Memory.read, this]

/-! ### IN and OUT -/

/-- OUT reads 0 where nothing is listed. -/
theorem outByte_of_not_listed {s : State} {a : Nat} (h : ∀ c ∈ s.outMem, c.1 ≠ a) : s.outByte a = 0 := by
  simp [State.outByte, Memory.read_of_not_listed h, Space.unlisted]

/-- A byte of IN after the host writes one. -/
theorem inByte_write {s : State} (a b : Nat) (v : Byte) (h : Memory.wf .inStream s.inMem) :
    ({ s with inMem := Memory.write .inStream s.inMem a v } : State).inByte b =
      if a = b then v else s.inByte b := by
  rcases eq_or_ne a b with rfl | hab
  · simp [State.inByte, Memory.read_write a a v h]
  · simp [State.inByte, Memory.read_write a b v h, hab]

/-- A byte of OUT after one is written. -/
theorem outByte_write {s t : State} (a b : Nat) (v : Byte) (h : Memory.wf .outBuffer s.outMem)
    (ht : t.outMem = Memory.write .outBuffer s.outMem a v) :
    t.outByte b = if a = b then v else s.outByte b := by
  rcases eq_or_ne a b with rfl | hab
  · simp [State.outByte, ht, Memory.read_write a a v h]
  · simp [State.outByte, ht, Memory.read_write a b v h, hab]

end Sys2Proof.Machine
end

