-- ==== Sys2Proof/Laws/State.lean ====
section
/-!
SUPPORT. The named updates of State, one lemma per field: what each changes and that it leaves the rest.
-/

namespace Sys2Proof.Machine

@[simp] theorem raiseStop_inMem (r : Reason) (s : State) : (raiseStop r s).inMem = s.inMem := rfl
@[simp] theorem raiseStop_outMem (r : Reason) (s : State) : (raiseStop r s).outMem = s.outMem := rfl
@[simp] theorem raiseStop_outSize (r : Reason) (s : State) : (raiseStop r s).outSize = s.outSize := rfl
@[simp] theorem raiseStop_inPos (r : Reason) (s : State) : (raiseStop r s).inPos = s.inPos := rfl
@[simp] theorem raiseStop_writePos (r : Reason) (s : State) : (raiseStop r s).writePos = s.writePos := rfl
@[simp] theorem raiseStop_mode (r : Reason) (s : State) : (raiseStop r s).mode = s.mode := rfl
@[simp] theorem raiseStop_phase (r : Reason) (s : State) : (raiseStop r s).phase = .done := rfl
@[simp] theorem raiseStop_reason (r : Reason) (s : State) : (raiseStop r s).reason = r := rfl
@[simp] theorem raiseStop_decoder (r : Reason) (s : State) : (raiseStop r s).decoder = s.decoder := rfl
@[simp] theorem raiseStop_compType (r : Reason) (s : State) : (raiseStop r s).compType = s.compType := rfl
@[simp] theorem raiseStop_inLen (r : Reason) (s : State) : (raiseStop r s).inLen = s.inLen := rfl
@[simp] theorem raiseStop_targetSize (r : Reason) (s : State) : (raiseStop r s).targetSize = s.targetSize := rfl
@[simp] theorem raiseStop_engine (r : Reason) (s : State) : (raiseStop r s).engine = s.engine := rfl
@[simp] theorem raiseStop_resets (r : Reason) (s : State) : (raiseStop r s).resets = s.resets := rfl
@[simp] theorem raiseStop_draws (r : Reason) (s : State) : (raiseStop r s).draws = s.draws := rfl
@[simp] theorem raiseStop_host (r : Reason) (s : State) : (raiseStop r s).host = s.host := rfl
@[simp] theorem raiseStop_hostData (r : Reason) (s : State) : (raiseStop r s).hostData = s.hostData := rfl
@[simp] theorem raiseStop_inByte (r : Reason) (s : State) (a : Nat) : (raiseStop r s).inByte a = s.inByte a := rfl
@[simp] theorem raiseStop_outByte (r : Reason) (s : State) (a : Nat) : (raiseStop r s).outByte a = s.outByte a := rfl

@[simp] theorem consume_inMem (n : Nat) (s : State) : (consume n s).inMem = s.inMem := rfl
@[simp] theorem consume_outMem (n : Nat) (s : State) : (consume n s).outMem = s.outMem := rfl
@[simp] theorem consume_outSize (n : Nat) (s : State) : (consume n s).outSize = s.outSize := rfl
@[simp] theorem consume_inPos (n : Nat) (s : State) : (consume n s).inPos = s.inPos + BitVec.ofNat 32 n := rfl
@[simp] theorem consume_writePos (n : Nat) (s : State) : (consume n s).writePos = s.writePos := rfl
@[simp] theorem consume_mode (n : Nat) (s : State) : (consume n s).mode = s.mode := rfl
@[simp] theorem consume_phase (n : Nat) (s : State) : (consume n s).phase = s.phase := rfl
@[simp] theorem consume_reason (n : Nat) (s : State) : (consume n s).reason = s.reason := rfl
@[simp] theorem consume_decoder (n : Nat) (s : State) : (consume n s).decoder = s.decoder := rfl
@[simp] theorem consume_compType (n : Nat) (s : State) : (consume n s).compType = s.compType := rfl
@[simp] theorem consume_inLen (n : Nat) (s : State) : (consume n s).inLen = s.inLen := rfl
@[simp] theorem consume_targetSize (n : Nat) (s : State) : (consume n s).targetSize = s.targetSize := rfl
@[simp] theorem consume_engine (n : Nat) (s : State) : (consume n s).engine = s.engine := rfl
@[simp] theorem consume_resets (n : Nat) (s : State) : (consume n s).resets = s.resets := rfl
@[simp] theorem consume_draws (n : Nat) (s : State) : (consume n s).draws = s.draws := rfl
@[simp] theorem consume_host (n : Nat) (s : State) : (consume n s).host = s.host := rfl
@[simp] theorem consume_hostData (n : Nat) (s : State) : (consume n s).hostData = s.hostData := rfl
@[simp] theorem consume_inByte (n : Nat) (s : State) (a : Nat) : (consume n s).inByte a = s.inByte a := rfl
@[simp] theorem consume_outByte (n : Nat) (s : State) (a : Nat) : (consume n s).outByte a = s.outByte a := rfl

@[simp] theorem setMode_inMem (m : Mode) (s : State) : (setMode m s).inMem = s.inMem := rfl
@[simp] theorem setMode_outMem (m : Mode) (s : State) : (setMode m s).outMem = s.outMem := rfl
@[simp] theorem setMode_outSize (m : Mode) (s : State) : (setMode m s).outSize = s.outSize := rfl
@[simp] theorem setMode_inPos (m : Mode) (s : State) : (setMode m s).inPos = s.inPos := rfl
@[simp] theorem setMode_writePos (m : Mode) (s : State) : (setMode m s).writePos = s.writePos := rfl
@[simp] theorem setMode_mode (m : Mode) (s : State) : (setMode m s).mode = m := rfl
@[simp] theorem setMode_phase (m : Mode) (s : State) : (setMode m s).phase = s.phase := rfl
@[simp] theorem setMode_reason (m : Mode) (s : State) : (setMode m s).reason = s.reason := rfl
@[simp] theorem setMode_decoder (m : Mode) (s : State) : (setMode m s).decoder = s.decoder := rfl
@[simp] theorem setMode_compType (m : Mode) (s : State) : (setMode m s).compType = s.compType := rfl
@[simp] theorem setMode_inLen (m : Mode) (s : State) : (setMode m s).inLen = s.inLen := rfl
@[simp] theorem setMode_targetSize (m : Mode) (s : State) : (setMode m s).targetSize = s.targetSize := rfl
@[simp] theorem setMode_engine (m : Mode) (s : State) : (setMode m s).engine = s.engine := rfl
@[simp] theorem setMode_resets (m : Mode) (s : State) : (setMode m s).resets = s.resets := rfl
@[simp] theorem setMode_draws (m : Mode) (s : State) : (setMode m s).draws = s.draws := rfl
@[simp] theorem setMode_host (m : Mode) (s : State) : (setMode m s).host = s.host := rfl
@[simp] theorem setMode_hostData (m : Mode) (s : State) : (setMode m s).hostData = s.hostData := rfl
@[simp] theorem setMode_inByte (m : Mode) (s : State) (a : Nat) : (setMode m s).inByte a = s.inByte a := rfl
@[simp] theorem setMode_outByte (m : Mode) (s : State) (a : Nat) : (setMode m s).outByte a = s.outByte a := rfl

@[simp] theorem clearCursors_inMem (s : State) : (clearCursors s).inMem = s.inMem := rfl
@[simp] theorem clearCursors_outMem (s : State) : (clearCursors s).outMem = s.outMem := rfl
@[simp] theorem clearCursors_outSize (s : State) : (clearCursors s).outSize = s.outSize := rfl
@[simp] theorem clearCursors_inPos (s : State) : (clearCursors s).inPos = 0 := rfl
@[simp] theorem clearCursors_writePos (s : State) : (clearCursors s).writePos = 0 := rfl
@[simp] theorem clearCursors_mode (s : State) : (clearCursors s).mode = .absolute := rfl
@[simp] theorem clearCursors_phase (s : State) : (clearCursors s).phase = s.phase := rfl
@[simp] theorem clearCursors_reason (s : State) : (clearCursors s).reason = .none := rfl
@[simp] theorem clearCursors_decoder (s : State) : (clearCursors s).decoder = s.decoder := rfl
@[simp] theorem clearCursors_compType (s : State) : (clearCursors s).compType = s.compType := rfl
@[simp] theorem clearCursors_inLen (s : State) : (clearCursors s).inLen = s.inLen := rfl
@[simp] theorem clearCursors_targetSize (s : State) : (clearCursors s).targetSize = s.targetSize := rfl
@[simp] theorem clearCursors_engine (s : State) : (clearCursors s).engine = s.engine := rfl
@[simp] theorem clearCursors_resets (s : State) : (clearCursors s).resets = s.resets := rfl
@[simp] theorem clearCursors_draws (s : State) : (clearCursors s).draws = s.draws := rfl
@[simp] theorem clearCursors_host (s : State) : (clearCursors s).host = s.host := rfl
@[simp] theorem clearCursors_hostData (s : State) : (clearCursors s).hostData = s.hostData := rfl
@[simp] theorem clearCursors_inByte (s : State) (a : Nat) : (clearCursors s).inByte a = s.inByte a := rfl
@[simp] theorem clearCursors_outByte (s : State) (a : Nat) : (clearCursors s).outByte a = s.outByte a := rfl

@[simp] theorem zeroFill_inMem (s : State) : (zeroFill s).inMem = s.inMem := rfl
@[simp] theorem zeroFill_outMem (s : State) : (zeroFill s).outMem = [] := rfl
@[simp] theorem zeroFill_outSize (s : State) : (zeroFill s).outSize = s.targetSize := rfl
@[simp] theorem zeroFill_inPos (s : State) : (zeroFill s).inPos = s.inPos := rfl
@[simp] theorem zeroFill_writePos (s : State) : (zeroFill s).writePos = s.writePos := rfl
@[simp] theorem zeroFill_mode (s : State) : (zeroFill s).mode = s.mode := rfl
@[simp] theorem zeroFill_phase (s : State) : (zeroFill s).phase = s.phase := rfl
@[simp] theorem zeroFill_reason (s : State) : (zeroFill s).reason = s.reason := rfl
@[simp] theorem zeroFill_decoder (s : State) : (zeroFill s).decoder = s.decoder := rfl
@[simp] theorem zeroFill_compType (s : State) : (zeroFill s).compType = s.compType := rfl
@[simp] theorem zeroFill_inLen (s : State) : (zeroFill s).inLen = s.inLen := rfl
@[simp] theorem zeroFill_targetSize (s : State) : (zeroFill s).targetSize = s.targetSize := rfl
@[simp] theorem zeroFill_engine (s : State) : (zeroFill s).engine = s.engine := rfl
@[simp] theorem zeroFill_resets (s : State) : (zeroFill s).resets = s.resets := rfl
@[simp] theorem zeroFill_draws (s : State) : (zeroFill s).draws = s.draws := rfl
@[simp] theorem zeroFill_host (s : State) : (zeroFill s).host = s.host := rfl
@[simp] theorem zeroFill_hostData (s : State) : (zeroFill s).hostData = s.hostData := rfl
@[simp] theorem zeroFill_inByte (s : State) (a : Nat) : (zeroFill s).inByte a = s.inByte a := rfl

@[simp] theorem hostGets_inMem (v : Word) (s : State) : (hostGets v s).inMem = s.inMem := rfl
@[simp] theorem hostGets_outMem (v : Word) (s : State) : (hostGets v s).outMem = s.outMem := rfl
@[simp] theorem hostGets_outSize (v : Word) (s : State) : (hostGets v s).outSize = s.outSize := rfl
@[simp] theorem hostGets_inPos (v : Word) (s : State) : (hostGets v s).inPos = s.inPos := rfl
@[simp] theorem hostGets_writePos (v : Word) (s : State) : (hostGets v s).writePos = s.writePos := rfl
@[simp] theorem hostGets_mode (v : Word) (s : State) : (hostGets v s).mode = s.mode := rfl
@[simp] theorem hostGets_phase (v : Word) (s : State) : (hostGets v s).phase = s.phase := rfl
@[simp] theorem hostGets_reason (v : Word) (s : State) : (hostGets v s).reason = s.reason := rfl
@[simp] theorem hostGets_decoder (v : Word) (s : State) : (hostGets v s).decoder = s.decoder := rfl
@[simp] theorem hostGets_compType (v : Word) (s : State) : (hostGets v s).compType = s.compType := rfl
@[simp] theorem hostGets_inLen (v : Word) (s : State) : (hostGets v s).inLen = s.inLen := rfl
@[simp] theorem hostGets_targetSize (v : Word) (s : State) : (hostGets v s).targetSize = s.targetSize := rfl
@[simp] theorem hostGets_engine (v : Word) (s : State) : (hostGets v s).engine = s.engine := rfl
@[simp] theorem hostGets_resets (v : Word) (s : State) : (hostGets v s).resets = s.resets := rfl
@[simp] theorem hostGets_draws (v : Word) (s : State) : (hostGets v s).draws = s.draws := rfl
@[simp] theorem hostGets_host (v : Word) (s : State) : (hostGets v s).host = s.host := rfl
@[simp] theorem hostGets_hostData (v : Word) (s : State) : (hostGets v s).hostData = v := rfl
@[simp] theorem hostGets_inByte (v : Word) (s : State) (a : Nat) : (hostGets v s).inByte a = s.inByte a := rfl
@[simp] theorem hostGets_outByte (v : Word) (s : State) (a : Nat) : (hostGets v s).outByte a = s.outByte a := rfl

@[simp] theorem hostDraws_inMem (mask : Word) (s : State) : (hostDraws mask s).inMem = s.inMem := rfl
@[simp] theorem hostDraws_outMem (mask : Word) (s : State) : (hostDraws mask s).outMem = s.outMem := rfl
@[simp] theorem hostDraws_outSize (mask : Word) (s : State) : (hostDraws mask s).outSize = s.outSize := rfl
@[simp] theorem hostDraws_inPos (mask : Word) (s : State) : (hostDraws mask s).inPos = s.inPos := rfl
@[simp] theorem hostDraws_writePos (mask : Word) (s : State) : (hostDraws mask s).writePos = s.writePos := rfl
@[simp] theorem hostDraws_mode (mask : Word) (s : State) : (hostDraws mask s).mode = s.mode := rfl
@[simp] theorem hostDraws_phase (mask : Word) (s : State) : (hostDraws mask s).phase = s.phase := rfl
@[simp] theorem hostDraws_reason (mask : Word) (s : State) : (hostDraws mask s).reason = s.reason := rfl
@[simp] theorem hostDraws_decoder (mask : Word) (s : State) : (hostDraws mask s).decoder = s.decoder := rfl
@[simp] theorem hostDraws_compType (mask : Word) (s : State) : (hostDraws mask s).compType = s.compType := rfl
@[simp] theorem hostDraws_inLen (mask : Word) (s : State) : (hostDraws mask s).inLen = s.inLen := rfl
@[simp] theorem hostDraws_targetSize (mask : Word) (s : State) : (hostDraws mask s).targetSize = s.targetSize := rfl
@[simp] theorem hostDraws_engine (mask : Word) (s : State) : (hostDraws mask s).engine = s.engine := rfl
@[simp] theorem hostDraws_resets (mask : Word) (s : State) : (hostDraws mask s).resets = s.resets := rfl
@[simp] theorem hostDraws_draws (mask : Word) (s : State) : (hostDraws mask s).draws = s.draws + 1 := rfl
@[simp] theorem hostDraws_host (mask : Word) (s : State) : (hostDraws mask s).host = s.host := rfl
@[simp] theorem hostDraws_hostData (mask : Word) (s : State) : (hostDraws mask s).hostData =
    Config.freeRead s.engine s.draws &&& mask := rfl
@[simp] theorem hostDraws_inByte (mask : Word) (s : State) (a : Nat) : (hostDraws mask s).inByte a = s.inByte a := rfl
@[simp] theorem hostDraws_outByte (mask : Word) (s : State) (a : Nat) : (hostDraws mask s).outByte a = s.outByte a := rfl

end Sys2Proof.Machine
end

