-- ==== Sys2Proof/Laws/Ops.lean ====
section
/-!
SUPPORT. One spec lemma for each shared operation: everything it can do.
-/

namespace Sys2Proof.Machine

/-! ### Sequencing -/

@[simp] theorem Run.bind_ok {α β : Type} (a : α) (s : State) (f : α → State → Run β) :
    (Run.ok a s).bind f = f a s := rfl

@[simp] theorem Run.bind_stopped {α β : Type} (s : State) (f : α → State → Run β) :
    (Run.stopped s : Run α).bind f = .stopped s := rfl

@[simp] theorem Run.bind_faulted {α β : Type} (e : Fault) (f : α → State → Run β) :
    (Run.faulted e : Run α).bind f = .faulted e := rfl

@[simp] theorem Run.outcome_ok (s : State) : (Run.ok () s).outcome = .next s := rfl

@[simp] theorem Run.outcome_stopped (s : State) : (Run.stopped s).outcome = .next s := rfl

@[simp] theorem Run.outcome_faulted (e : Fault) : (Run.faulted e).outcome = .fault e := rfl

/-- The run does not fault, and the state it leaves (by returning or by a Stop) satisfies `P`. -/
def Run.Leaves {α : Type} (P : State → Prop) : Run α → Prop
  | .ok _ s => P s
  | .stopped s => P s
  | .faulted _ => False

/-- The outcome of a run that does not fault is a next state. -/
theorem Run.Leaves.outcome {P : State → Prop} {r : Run Unit} (h : r.Leaves P) :
    ∃ t, r.outcome = .next t ∧ P t := by
  cases r with
  | ok a s => exact ⟨s, rfl, h⟩
  | stopped s => exact ⟨s, rfl, h⟩
  | faulted f => exact h.elim

theorem Run.Leaves.mono {α : Type} {P Q : State → Prop} {r : Run α} (h : r.Leaves P) (hPQ : ∀ t, P t → Q t) :
    r.Leaves Q := by
  cases r with
  | ok a s => exact hPQ s h
  | stopped s => exact hPQ s h
  | faulted f => exact h

/-- One run after another. -/
theorem Run.Leaves.bind {α β : Type} {P Q : State → Prop} {r : Run α} {f : α → State → Run β}
    (h : r.Leaves P) (hs : ∀ s, r = .stopped s → Q s) (hf : ∀ a s, r = .ok a s → (f a s).Leaves Q) :
    (r.bind f).Leaves Q := by
  cases r with
  | ok a s => exact hf a s rfl
  | stopped s => exact hs s rfl
  | faulted f => exact h.elim

/-! ### Fetch8 -/

theorem fetch8_end {s : State} (h : s.inLen.toNat ≤ s.inPos.toNat) :
    fetch8 s = .stopped (raiseStop .truncatedInput s) := if_pos h

theorem fetch8_byte {s : State} (h : s.inPos.toNat < s.inLen.toNat) :
    fetch8 s = .ok (s.inByte s.inPos.toNat) (consume 1 s) := if_neg (by omega)

theorem consume_inPos_toNat {n : Nat} {s : State} (h : s.inPos.toNat + n ≤ s.inLen.toNat) :
    (consume n s).inPos.toNat = s.inPos.toNat + n := by
  have := s.inLen.isLt
  simp only [consume_inPos, BitVec.toNat_add, BitVec.toNat_ofNat]
  rw [Nat.mod_eq_of_lt (a := n) (by omega), Nat.mod_eq_of_lt (by omega)]

theorem consume_consume (m n : Nat) (s : State) : consume n (consume m s) = consume (m + n) s := by
  simp [consume, BitVec.ofNat_add, BitVec.add_assoc]

/-! ### Put -/

/-- The state after a byte is put. -/
def putState (v : Byte) (s : State) : State :=
  { s with outMem := Memory.write .outBuffer s.outMem s.writePos.toNat v, writePos := s.writePos + 1 }

theorem put_full {v : Byte} {s : State} (h : s.writePos = s.targetSize) :
    put v s = .stopped (raiseStop .outputExhausted s) := if_pos h

theorem put_room {v : Byte} {s : State} (h : s.writePos.toNat < s.targetSize.toNat) :
    put v s = .ok () (putState v s) := by
  have hne : s.writePos ≠ s.targetSize := fun e => by rw [e] at h; omega
  simp [put, memWriteOut, putState, hne, h]

/-- In every state Put returns, stops with OUTPUT_EXHAUSTED or, past the end of OUT, faults. -/
theorem put_cases (v : Byte) (s : State) :
    put v s = .ok () (putState v s) ∨ put v s = .stopped (raiseStop .outputExhausted s) ∨
      put v s = .faulted .outWriteOutOfRange := by
  unfold put memWriteOut
  split
  · simp
  · split <;> simp [putState]

theorem putState_writePos_toNat {v : Byte} {s : State} (h : s.writePos.toNat < s.targetSize.toNat) :
    (putState v s).writePos.toNat = s.writePos.toNat + 1 := by
  have := s.targetSize.isLt
  rw [putState, BitVec.toNat_add]
  simp
  omega

theorem putState_outByte {v : Byte} {s : State} (h : Memory.wf .outBuffer s.outMem) (a : Nat) :
    (putState v s).outByte a = if s.writePos.toNat = a then v else s.outByte a :=
  outByte_write _ a v h rfl

theorem room_putState {v : Byte} {s : State} (h : s.writePos.toNat < s.targetSize.toNat) :
    s.room = (putState v s).room + 1 := by
  simp only [State.room, putState_writePos_toNat h]; simp only [putState]; omega

/-! ### What a command leaves -/

theorem Wrote.congr {s t : State} {u m : Nat} {f g : Nat → Byte} {e : Option Reason}
    (h : Wrote s t u m f e) (hfg : ∀ i, i < m → f i = g i) : Wrote s t u m g e :=
  { h with written := fun i hi => (h.written i hi).trans (hfg i hi) }

theorem Wrote.refl (s : State) (f : Nat → Byte) : Wrote s s 0 0 f none := by
  constructor <;> simp [Ended]

theorem Wrote.stop (s : State) (r : Reason) (f : Nat → Byte) : Wrote s (raiseStop r s) 0 0 f (some r) := by
  constructor <;> simp [Ended]

theorem Wrote.consumed {s t : State} {k u m : Nat} {f : Nat → Byte} {e : Option Reason}
    (hk : s.inPos.toNat + k ≤ s.inLen.toNat) (h : Wrote (consume k s) t u m f e) :
    Wrote s t (k + u) m f e := by
  have hp := consume_inPos_toNat hk
  have h1 := h.inPos
  cases h
  constructor <;> first | assumption | omega

/-- Putting a byte, then writing more. -/
theorem Wrote.put {s t : State} {u m : Nat} {v : Byte} {f : Nat → Byte} {e : Option Reason}
    (hs : s.OutReady) (hr : s.writePos.toNat < s.targetSize.toNat) (h : Wrote (putState v s) t u m f e) :
    Wrote s t u (m + 1) (fun i => if i = 0 then v else f (i - 1)) e := by
  have hw := putState_writePos_toNat (v := v) hr
  have hb := putState_outByte (v := v) hs.1
  refine { h with
    writePos := ?_, written := ?_, untouched := ?_, ended := ?_, inBytes := h.inBytes }
  · rw [h.writePos, hw]; omega
  · intro i hi
    rcases Nat.eq_zero_or_pos i with rfl | hpos
    · rw [h.untouched _ (by omega), hb]; simp
    · have := h.written (i - 1) (by omega)
      rw [hw] at this
      rw [show s.writePos.toNat + i = s.writePos.toNat + 1 + (i - 1) by omega, this]
      simp; omega
  · intro a ha
    rw [h.untouched a (by omega), hb, if_neg (by omega)]
  · have := h.ended
    cases e <;> exact this

theorem putState_OutReady {v : Byte} {s : State} (hs : s.OutReady)
    (hr : s.writePos.toNat < s.targetSize.toNat) : (putState v s).OutReady := by
  refine ⟨Memory.wf_write _ _ hs.1, ?_⟩
  rw [putState_writePos_toNat hr]; exact hr

/-! ### From the state after a command's opcode and operands to the state before -/

theorem Filled.consumed {s t : State} {k n : Nat} {v : Byte} (hk : s.inPos.toNat + k ≤ s.inLen.toNat)
    (h : Filled (consume k s) t 0 n v) : Filled s t k n v :=
  Wrote.consumed hk h

theorem CopiedLiteral.consumed {s t : State} {k n : Nat} (hk : s.inPos.toNat + k ≤ s.inLen.toNat)
    (h : CopiedLiteral (consume k s) t 0 n) : CopiedLiteral s t k n := by
  unfold CopiedLiteral at *
  simp only [State.room, State.ahead, consume_writePos, consume_targetSize, consume_inByte,
    consume_inPos_toNat hk, consume_inLen, Nat.add_zero, Nat.zero_add] at *
  exact Wrote.consumed hk h

theorem CopiedBack.consumed {s t : State} {k n : Nat} {src : Int} (hk : s.inPos.toNat + k ≤ s.inLen.toNat)
    (h : CopiedBack (consume k s) t 0 src n) : CopiedBack s t k src n := by
  unfold CopiedBack at *
  simp only [State.room, consume_writePos, consume_targetSize, consume_outByte] at *
  by_cases c0 : n = 0
  · simp only [c0, if_true] at *; exact Wrote.consumed hk h
  by_cases c1 : s.targetSize.toNat - s.writePos.toNat = 0
  · simp only [c0, c1, if_true, if_false] at *; exact Wrote.consumed hk h
  by_cases c2 : src < 0 ∨ (s.writePos.toNat : Int) ≤ src
  · simp only [c0, c1, c2, if_true, if_false] at h ⊢; exact Wrote.consumed hk h
  · simp only [c0, c1, c2, if_false] at h ⊢; exact Wrote.consumed hk h

/-! ### The three copiers -/

/-- FillBytes: everything it can do. -/
theorem fillBytes_spec (n : Nat) (v : Byte) {s : State} (hs : s.OutReady) :
    (fillBytes n v s).Leaves (fun t => Filled s t 0 n v) := by
  induction n generalizing s with
  | zero => simpa [fillBytes, Run.Leaves, Filled] using Wrote.refl s _
  | succ n ih =>
    rcases Nat.lt_or_ge s.writePos.toNat s.targetSize.toNat with hr | hf
    · rw [fillBytes, put_room hr, Run.bind_ok]
      have := ih (putState_OutReady (v := v) hs hr)
      refine this.mono fun t ht => ?_
      have := (Wrote.put hs hr ht).congr (g := fun _ => v) (by intro i _; split <;> rfl)
      unfold Filled
      rw [room_putState hr]
      simpa [Nat.add_min_add_right] using this
    · have he : s.writePos = s.targetSize := BitVec.eq_of_toNat_eq (Nat.le_antisymm hs.2 hf)
      rw [fillBytes, put_full he, Run.bind_stopped]
      have hroom : s.room = 0 := by simp only [State.room]; omega
      simpa [Run.Leaves, Filled, hroom] using Wrote.stop s .outputExhausted _

/-- CopyLiteral: everything it can do. -/
theorem copyLiteral_spec (n : Nat) {s : State} (hs : s.OutReady) :
    (copyLiteral n s).Leaves (fun t => CopiedLiteral s t 0 n) := by
  induction n generalizing s with
  | zero => simpa [copyLiteral, Run.Leaves, CopiedLiteral] using Wrote.refl s _
  | succ n ih =>
    rcases Nat.lt_or_ge s.writePos.toNat s.targetSize.toNat with hr | hf
    · have hne : s.writePos ≠ s.targetSize := fun e => by rw [e] at hr; omega
      rw [copyLiteral, if_neg hne]
      rcases Nat.lt_or_ge s.inPos.toNat s.inLen.toNat with hi | hi
      · rw [fetch8_byte hi, Run.bind_ok]
        have hr' : (consume 1 s).writePos.toNat < (consume 1 s).targetSize.toNat := hr
        rw [put_room hr', Run.bind_ok]
        have hs' : (consume 1 s).OutReady := hs
        set v := s.inByte s.inPos.toNat with hv
        have := ih (putState_OutReady (v := v) hs' hr')
        have hpos : (consume 1 s).inPos.toNat = s.inPos.toNat + 1 := consume_inPos_toNat (by omega)
        refine this.mono fun t ht => ?_
        have hw := (Wrote.put hs' hr' ht).consumed (by omega)
        have hroom : s.room = (putState v (consume 1 s)).room + 1 := room_putState (v := v) hr'
        have hahead : s.ahead 0 = (putState v (consume 1 s)).ahead 0 + 1 := by
          simp only [State.ahead]; simp only [putState, hpos, consume_inLen]; omega
        have hm : min (n + 1) (min s.room (s.ahead 0)) =
            min n (min (putState v (consume 1 s)).room ((putState v (consume 1 s)).ahead 0)) + 1 := by
          rw [hroom, hahead]; omega
        have hb : ∀ i, (if i = 0 then v else
            (putState v (consume 1 s)).inByte ((putState v (consume 1 s)).inPos.toNat + 0 + (i - 1))) =
            s.inByte (s.inPos.toNat + 0 + i) := by
          intro i
          split
          · subst_vars; simp [hv]
          · show s.inByte _ = _
            congr 1
            simp only [putState, hpos]; omega
        have hw := hw.congr (g := fun i => s.inByte (s.inPos.toNat + 0 + i)) (fun i _ => hb i)
        unfold CopiedLiteral
        simp only
        rw [hm, hroom, hahead]
        simp only [Nat.add_le_add_iff_right]
        convert hw using 1
        omega
      · rw [fetch8_end hi, Run.bind_stopped]
        have hahead : s.ahead 0 = 0 := by simp only [State.ahead]; omega
        have hroom : ¬ s.room = 0 := by simp only [State.room]; omega
        simpa [Run.Leaves, CopiedLiteral, hahead, hroom] using Wrote.stop s .truncatedInput _
    · have he : s.writePos = s.targetSize := BitVec.eq_of_toNat_eq (Nat.le_antisymm hs.2 hf)
      rw [copyLiteral, if_pos he]
      have hroom : s.room = 0 := by simp only [State.room]; omega
      simpa [Run.Leaves, CopiedLiteral, hroom] using Wrote.stop s .outputExhausted _

theorem memReadOut_ok {a : Nat} {s : State} (h : a < s.targetSize.toNat) :
    memReadOut a s = .ok (s.outByte a) s := if_pos h

/-- CopyBack from an already written position: the bytes repeat with period WRITE_POS - src (R61, R106). -/
theorem copyBack_good (n : Nat) (src : Nat) {s : State} (hs : s.OutReady) (hsrc : src < s.writePos.toNat) :
    (copyBack (src : Int) n s).Leaves (fun t =>
      Wrote s t 0 (min n s.room) (fun i => s.outByte (src + i % (s.writePos.toNat - src)))
        (if n ≤ s.room then none else some .outputExhausted)) := by
  induction n generalizing s src with
  | zero => simpa [copyBack, Run.Leaves] using Wrote.refl s _
  | succ n ih =>
    rcases Nat.lt_or_ge s.writePos.toNat s.targetSize.toNat with hr | hf
    · have hne : s.writePos ≠ s.targetSize := fun e => by rw [e] at hr; omega
      have hgood : ¬ ((src : Int) < 0 ∨ (s.writePos.toNat : Int) ≤ (src : Int)) := by omega
      rw [copyBack, if_neg hne, if_neg hgood, Int.toNat_natCast,
        memReadOut_ok (by omega), Run.bind_ok, put_room hr, Run.bind_ok]
      set v := s.outByte src with hv
      have hw := putState_writePos_toNat (v := v) hr
      have := ih (src + 1) (putState_OutReady (v := v) hs hr) (by omega)
      rw [Int.natCast_add, Int.natCast_one] at this
      refine this.mono fun t ht => ?_
      have h1 := Wrote.put hs hr ht
      rw [room_putState hr, Nat.add_min_add_right]
      have h2 := h1.congr (g := fun i => s.outByte (src + i % (s.writePos.toNat - src))) (by
        intro i _
        have hd : (putState v s).writePos.toNat - (src + 1) = s.writePos.toNat - src := by omega
        rcases Nat.eq_zero_or_pos i with rfl | hpos
        · simp [hv]
        · rw [if_neg (by omega), hd, putState_outByte hs.1]
          have hlt : (i - 1) % (s.writePos.toNat - src) < s.writePos.toNat - src :=
            Nat.mod_lt _ (by omega)
          have hi : i % (s.writePos.toNat - src) =
              ((i - 1) % (s.writePos.toNat - src) + 1) % (s.writePos.toNat - src) := by
            rw [Nat.mod_add_mod]; congr 1; omega
          split
          · next h =>
            have : (i - 1) % (s.writePos.toNat - src) + 1 = s.writePos.toNat - src := by omega
            rw [hi, this, Nat.mod_self]; simp [hv]
          · next h =>
            rw [hi, Nat.mod_eq_of_lt (a := (i - 1) % (s.writePos.toNat - src) + 1) (by omega)]
            congr 1; omega)
      simpa using h2
    · have he : s.writePos = s.targetSize := BitVec.eq_of_toNat_eq (Nat.le_antisymm hs.2 hf)
      rw [copyBack, if_pos he]
      have hroom : s.room = 0 := by simp only [State.room]; omega
      simpa [Run.Leaves, hroom] using Wrote.stop s .outputExhausted _

/-- CopyBack: everything it can do. -/
theorem copyBack_spec (src : Int) (n : Nat) {s : State} (hs : s.OutReady) :
    (copyBack src n s).Leaves (fun t => CopiedBack s t 0 src n) := by
  unfold CopiedBack
  cases n with
  | zero => simpa [copyBack, Run.Leaves] using Wrote.refl s _
  | succ n =>
    have h2 := hs.2
    simp only [Nat.succ_ne_zero, if_false]
    rcases Nat.eq_zero_or_pos s.room with h0 | hpos
    · have he : s.writePos = s.targetSize :=
        BitVec.eq_of_toNat_eq (by simp only [State.room] at h0; omega)
      rw [copyBack, if_pos he]
      simpa [Run.Leaves, h0] using Wrote.stop s .outputExhausted _
    · have hne : s.writePos ≠ s.targetSize := fun e => by simp [State.room, e] at hpos
      by_cases hbad : src < 0 ∨ (s.writePos.toNat : Int) ≤ src
      · rw [copyBack, if_neg hne, if_pos hbad]
        simpa [Run.Leaves, hbad, Nat.pos_iff_ne_zero.1 hpos] using Wrote.stop s .badReference _
      · obtain ⟨k, rfl⟩ := Int.eq_ofNat_of_zero_le (by omega : 0 ≤ src)
        refine (copyBack_good (n + 1) k hs (by omega)).mono fun t ht => ?_
        rw [if_neg (by omega), if_neg hbad]
        exact ht

end Sys2Proof.Machine
end

