-- ==== Sys2Proof/Laws/Keeps.lean ====
section
/-!
SUPPORT. A property that consuming a byte, putting a byte and raising a Stop keep is kept by every shared operation and
by every meaning: the one induction behind each frame and each invariant.
-/

namespace Sys2Proof.Machine

/-- `P` is kept by the elementary effects of a command: consuming stream bytes, putting a byte below TARGET_SIZE,
raising a Stop. -/
structure Kept (P : State → Prop) : Prop where
  consume : ∀ n s, P s → P (consume n s)
  put : ∀ v s, s.writePos.toNat < s.targetSize.toNat → P s → P (putState v s)
  stop : ∀ r s, P s → P (raiseStop r s)

/-- Where Put returns there was room. -/
theorem put_ok {v : Byte} {s t : State} {a : Unit} (h : put v s = .ok a t) :
    s.writePos.toNat < s.targetSize.toNat ∧ t = putState v s := by
  unfold put memWriteOut at h
  split at h
  · cases h
  · split at h
    · next hlt => simp only [Run.bind_ok, Run.ok.injEq] at h; exact ⟨hlt, h.2.symm⟩
    · cases h

variable {P : State → Prop}

theorem Kept.put_outcome (hP : Kept P) {v : Byte} {s t : State} (hs : P s)
    (h : (Sys2Proof.Machine.put v s).outcome = .next t) : P t := by
  rcases put_cases v s with e | e | e
  · have := put_ok e
    rw [e, Run.outcome_ok] at h; cases h
    exact hP.put v s this.1 hs
  · rw [e, Run.outcome_stopped] at h; cases h
    exact hP.stop _ _ hs
  · rw [e] at h; cases h

/-- After a Put: either the job ended or the command goes on from the new state. -/
theorem Kept.put_bind (hP : Kept P) {v : Byte} {s t : State} {f : Unit → State → Run Unit} (hs : P s)
    (hf : ∀ a u, P u → (f a u).outcome = .next t → P t)
    (h : ((Sys2Proof.Machine.put v s).bind f).outcome = .next t) : P t := by
  rcases put_cases v s with e | e | e
  · have := put_ok e
    rw [e, Run.bind_ok] at h
    exact hf _ _ (hP.put v s this.1 hs) h
  · rw [e, Run.bind_stopped, Run.outcome_stopped] at h; cases h
    exact hP.stop _ _ hs
  · rw [e] at h; cases h

theorem Kept.fillBytes (hP : Kept P) (n : Nat) (v : Byte) {s t : State} (hs : P s)
    (h : (fillBytes n v s).outcome = .next t) : P t := by
  induction n generalizing s with
  | zero => cases h; exact hs
  | succ n ih => exact hP.put_bind hs (fun _ _ hu hk => ih hu hk) h

theorem Kept.copyLiteral (hP : Kept P) (n : Nat) {s t : State} (hs : P s)
    (h : (copyLiteral n s).outcome = .next t) : P t := by
  induction n generalizing s with
  | zero => cases h; exact hs
  | succ n ih =>
    rw [Sys2Proof.Machine.copyLiteral] at h
    split at h
    · cases h; exact hP.stop _ _ hs
    · rcases Nat.lt_or_ge s.inPos.toNat s.inLen.toNat with hi | hi
      · rw [fetch8_byte hi, Run.bind_ok] at h
        exact hP.put_bind (hP.consume 1 s hs) (fun _ _ hu hk => ih hu hk) h
      · rw [fetch8_end hi] at h; cases h; exact hP.stop _ _ hs

theorem Kept.copyBack (hP : Kept P) (src : Int) (n : Nat) {s t : State} (hs : P s)
    (h : (copyBack src n s).outcome = .next t) : P t := by
  induction n generalizing s src with
  | zero => cases h; exact hs
  | succ n ih =>
    rw [Sys2Proof.Machine.copyBack] at h
    split at h
    · cases h; exact hP.stop _ _ hs
    · split at h
      · cases h; exact hP.stop _ _ hs
      · unfold memReadOut at h
        split at h
        · exact hP.put_bind hs (fun _ _ hu hk => ih _ hu hk) h
        · cases h

/-- Every command but REL keeps `P`. -/
theorem Kept.exec (hP : Kept P) {i : Instr} (hi : i ≠ .rel) {s t : State} (hs : P s)
    (h : exec i s = .next t) : P t := by
  cases i with
  | rel => exact absurd rfl hi
  | sbr count dist => exact hP.copyBack _ _ (hP.consume _ _ hs) h
  | lit count => exact hP.copyLiteral _ (hP.consume _ _ hs) h
  | endMark => cases h; exact hP.stop _ _ (hP.consume _ _ hs)
  | mcp count dat => exact hP.copyBack _ _ (hP.consume _ _ hs) h
  | fill n v => exact hP.fillBytes _ _ (hP.consume _ _ hs) h
  | vcp n dat => exact hP.copyBack _ _ (hP.consume _ _ hs) h
  | rlit count => exact hP.copyLiteral _ (hP.consume _ _ hs) h
  | rrep n v => exact hP.fillBytes _ _ (hP.consume _ _ hs) h
  | rxt n v => exact hP.fillBytes _ _ (hP.consume _ _ hs) h

/-- A byte of OUT away from the one put. -/
theorem putState_outByte_other {v : Byte} {s : State} {a : Nat} (h : s.writePos.toNat ≠ a) :
    (putState v s).outByte a = s.outByte a := by
  simp only [State.outByte, putState, Memory.read_write_other v h]

end Sys2Proof.Machine
end

