-- ==== Sys2Proof/Laws/Engine.lean ====
section
/-!
SUPPORT. The window of bytes at IN_POS that a step decodes, what a step of a running job does, and that every step keeps
the engine's number.
-/

namespace Sys2Proof.Machine

theorem bytesFrom_length (s : State) (k a : Nat) : (bytesFrom s k a).length = min k (s.inLen.toNat - a) := by
  induction k generalizing a with
  | zero => simp [bytesFrom]
  | succ k ih =>
    rw [bytesFrom]
    split
    · rw [List.length_cons, ih]; omega
    · rw [List.length_nil]; omega

theorem bytesFrom_get (s : State) (k a j : Nat) (hj : j < k) (h : a + j < s.inLen.toNat) :
    (bytesFrom s k a)[j]? = some (s.inByte (a + j)) := by
  induction k generalizing a j with
  | zero => omega
  | succ k ih =>
    rw [bytesFrom, if_pos (by omega)]
    cases j with
    | zero => rfl
    | succ j =>
      rw [List.getElem?_cons_succ, ih (a + 1) j (by omega) (by omega)]
      congr 2; omega

theorem operandWindow_length (s : State) :
    (operandWindow s).length = min longestOperands (s.inLen.toNat - s.inPos.toNat) := bytesFrom_length _ _ _

/-- The window is a byte and the window one byte on, cut to four bytes, while IN_POS < IN_LEN. -/
theorem bytesFrom_succ {s : State} {k a : Nat} (h : a < s.inLen.toNat) :
    bytesFrom s (k + 1) a = s.inByte a :: bytesFrom s k (a + 1) := if_pos h

theorem bytesFrom_end {s : State} {k a : Nat} (h : s.inLen.toNat ≤ a) : bytesFrom s k a = [] := by
  cases k with
  | zero => rfl
  | succ k => exact if_neg (by omega)

/-- A decoded command's bytes all lie before IN_LEN. -/
theorem decoded_size_le {s : State} {d : Decoder} {index : Nat} {i : Instr} {rest : List Byte}
    (h : decode d index (operandWindow s) = .ok (i, rest)) (hp : s.inPos.toNat ≤ s.inLen.toNat) :
    s.inPos.toNat + i.size ≤ s.inLen.toNat ∧ i.decoder = d := by
  have h1 := decode_size h
  have h2 := operandWindow_length s
  exact ⟨by omega, h1.2⟩

/-- Everything a step of a BUSY engine can be: the two stops at its top, a command, a command cut short, or, without a
decoder, a fault. -/
theorem busyStep_cases (s : State) :
    (s.writePos = s.targetSize ∧ busyStep s = .next (raiseStop .outputExhausted s)) ∨
    (s.writePos ≠ s.targetSize ∧ s.inPos = s.inLen ∧ busyStep s = .next (raiseStop .inputEnd s)) ∨
    (s.writePos ≠ s.targetSize ∧ s.inPos ≠ s.inLen ∧ ∃ i rest,
      decode s.decoder s.inPos.toNat (operandWindow s) = .ok (i, rest) ∧ busyStep s = exec i s) ∨
    (s.writePos ≠ s.targetSize ∧ s.inPos ≠ s.inLen ∧ s.decoder ≠ .none ∧
      busyStep s = .next (operandsCut s)) ∨
    (s.decoder = .none ∧ busyStep s = .fault .busyWithoutDecoder) := by
  unfold busyStep
  by_cases h1 : s.writePos = s.targetSize
  · simp [h1]
  by_cases h2 : s.inPos = s.inLen
  · simp [h1, h2]
  simp only [h1, h2, if_false, runCommand]
  cases hd : decode s.decoder s.inPos.toNat (operandWindow s) with
  | ok p => obtain ⟨i, rest⟩ := p; exact .inr (.inr (.inl ⟨h1, h2, i, rest, rfl, rfl⟩))
  | error e =>
    by_cases hn : s.decoder = .none
    · rw [hn] at hd; cases hd; exact .inr (.inr (.inr (.inr ⟨hn, rfl⟩)))
    · refine .inr (.inr (.inr (.inl ⟨h1, h2, hn, ?_⟩)))
      cases e with
      | noDecoder =>
        cases hdec : s.decoder with
        | none => exact absurd hdec hn
        | copyCode =>
          rw [hdec] at hd
          simp only [decode, decodeCopyCode] at hd
          split at hd
          · cases hd
          · repeat' split at hd
            all_goals cases hd
        | runLength =>
          rw [hdec] at hd
          simp only [decode, decodeRunLength] at hd
          split at hd
          · cases hd
          · repeat' split at hd
            all_goals cases hd
      | empty => rfl
      | truncated => rfl

/-- Mode resolution before a REL prefix. -/
theorem resolveMode_rel {s : State} (h : 1 ≤ s.inLen.toNat) (h0 : s.inByte 0 = 0x00#8) : resolveMode s = execRel s :=
  if_pos ⟨h, h0⟩

/-- Mode resolution without one. -/
theorem resolveMode_none {s : State} (h : ¬(1 ≤ s.inLen.toNat ∧ s.inByte 0 = 0x00#8)) : resolveMode s = .next s :=
  if_neg h

/-- The engines of a reset platform, numbered by their places. -/
theorem Platform.reset_wf : Platform.reset.wf := by
  refine ⟨by simp [Platform.reset], fun k s h => ?_⟩
  simp only [Platform.reset, List.getElem?_map, Option.map_eq_some_iff] at h
  obtain ⟨j, hj, rfl⟩ := h
  have := (List.getElem?_eq_some_iff.1 hj).2
  simpa using this.symm

/-- A running job's step is a step of the engine. -/
theorem step_running {s : State} (h : s.Running) : step s = busyStep s := by
  rw [step, turn, h.2]
  simp only [engineStep, h.1]

/-! ### The engine's number -/

/-- A command keeps the engine's number. -/
theorem exec_engine {i : Instr} {s t : State} (h : exec i s = .next t) : t.engine = s.engine := by
  by_cases hi : i = .rel
  · subst hi; cases h; rfl
  · exact Kept.exec (P := fun u => u.engine = s.engine) ⟨fun _ _ h => h, fun _ _ _ h => h, fun _ _ h => h⟩ hi rfl h

theorem engineStep_engine {s t : State} (h : engineStep s = .next t) : t.engine = s.engine := by
  unfold engineStep at h
  split at h
  · cases h; rfl
  · rcases busyStep_cases s with ⟨_, e⟩ | ⟨_, _, e⟩ | ⟨_, _, i, rest, _, e⟩ | ⟨_, _, _, e⟩ | ⟨_, e⟩ <;> rw [e] at h
    · cases h; rfl
    · cases h; rfl
    · exact exec_engine h
    · cases h; rfl
    · cases h
  · cases h; rfl

theorem start_engine {s t : State} (h : start s = .next t) : t.engine = s.engine := by
  unfold start at h
  split at h
  · cases h
  · cases hk : Config.compressionTypeMap s.compType with
    | copyCode =>
      rw [hk] at h
      simp only [beginJob, resolveMode] at h
      split at h <;> cases h <;> rfl
    | runLength => rw [hk] at h; cases h; rfl
    | unsupported => rw [hk] at h; cases h; rfl

theorem act_engine {e : HostEvent} {s t : State} (h : act e s = .next t) : t.engine = s.engine := by
  cases e with
  | engineTurn => exact engineStep_engine h
  | writeReg r v =>
    simp only [act, hostWriteReg] at h
    split at h
    · cases h; rfl
    · cases r <;> simp only at h <;> first | (cases h; rfl) | skip
      split at h
      · exact start_engine h
      · cases h; rfl
  | readReg r => cases h; unfold hostReadReg; split <;> rfl
  | writeIn index v => cases h; unfold hostWriteIn; split <;> rfl
  | readOut index => cases h; unfold hostReadOut; split <;> rfl
  | reset => cases h; rfl

/-- Every step keeps the engine's number, reset included. -/
theorem step_engine {s t : State} (h : step s = .next t) : t.engine = s.engine := by
  rw [step, turn] at h
  split at h
  · exact engineStep_engine h
  · next rest _ => exact act_engine (s := { s with host := rest }) h

end Sys2Proof.Machine
end

