-- ==== Sys2Proof/Laws/PerInstr.lean ====
section
/-!
SUPPORT. Statements made per instruction. EncodeSize: an encoding has as many bytes as the command's size (R71), at
least one and at most the longest, and only LIT and RLIT are followed by literal bytes.
-/

namespace Sys2Proof.Laws.EncodeSize

/-- The length of a command's encoding (R71). -/
def Statement (i : Instr) : Prop :=
  (encode i).length = i.size ∧ 1 ≤ i.size ∧ i.size ≤ longestOperands ∧
    (i.wellFormed = true → i.fullLength ≤ longestCommand)

theorem rel : Statement .rel := by unfold Statement; decide

theorem sbr (count : Nat) (dist : BitVec 12) : Statement (.sbr count dist) := by
  simp [Statement, encode, Instr.size, longestOperands, Instr.fullLength, Instr.literals, longestCommand]

theorem lit (count : Nat) : Statement (.lit count) := by
  simp [Statement, encode, Instr.size, longestOperands, Instr.fullLength, Instr.literals, longestCommand,
    Instr.wellFormed]
  omega

theorem endMark : Statement .endMark := by unfold Statement; decide

theorem mcp (count : Nat) (dat : Half) : Statement (.mcp count dat) := by
  simp [Statement, encode, Instr.size, longestOperands, Instr.fullLength, Instr.literals, longestCommand]

theorem fill (n : Half) (v : Byte) : Statement (.fill n v) := by
  simp [Statement, encode, Instr.size, longestOperands, Instr.fullLength, Instr.literals, longestCommand]

theorem vcp (n dat : Half) : Statement (.vcp n dat) := by
  simp [Statement, encode, Instr.size, longestOperands, Instr.fullLength, Instr.literals, longestCommand]

theorem rlit (count : Nat) : Statement (.rlit count) := by
  simp [Statement, encode, Instr.size, longestOperands, Instr.fullLength, Instr.literals, longestCommand,
    Instr.wellFormed]
  omega

theorem rrep (n : Nat) (v : Byte) : Statement (.rrep n v) := by
  simp [Statement, encode, Instr.size, longestOperands, Instr.fullLength, Instr.literals, longestCommand]

theorem rxt (n : Half) (v : Byte) : Statement (.rxt n v) := by
  simp [Statement, encode, Instr.size, longestOperands, Instr.fullLength, Instr.literals, longestCommand]

end Sys2Proof.Laws.EncodeSize
end

