-- ==== Sys2Proof/Tests/Slice0.lean ====
section
/-!
SUPPORT. Small tests. Expected values are the spec's: the worked examples and vectors of 95_test_vectors.md (E-…, V-…,
P1) and words written out from the encodings of 30_encoding.md. The theorems test_witness_… show that the hypotheses of
the obligation they name can be met together, at the boundary of each clause.
-/

namespace Sys2Proof.Tests
open Sys2Proof Sys2Proof.Machine

/-! ### WellFormed refuses what R86 excludes -/

theorem test_wellFormed_refuses_sbr : (Instr.sbr 2 0).wellFormed = false ∧ (Instr.sbr 11 0).wellFormed = false := by
  decide
theorem test_wellFormed_refuses_lit : (Instr.lit 0).wellFormed = false ∧ (Instr.lit 64).wellFormed = false := by decide
theorem test_wellFormed_refuses_mcp : (Instr.mcp 2 0).wellFormed = false ∧ (Instr.mcp 65 0).wellFormed = false := by
  decide
theorem test_wellFormed_refuses_rlit : (Instr.rlit 0).wellFormed = false ∧ (Instr.rlit 128).wellFormed = false := by
  decide
theorem test_wellFormed_refuses_rrep : (Instr.rrep 0 0).wellFormed = false ∧ (Instr.rrep 129 0).wellFormed = false := by
  decide

/-! ### Decoding words written out from R74 to R83 -/

theorem test_decode_rel : decode .copyCode 0 [0b00000000#8, 0x83#8] = .ok (.rel, [0x83#8]) := by decide
theorem test_decode_zero_elsewhere : decode .copyCode 1 [0b00000000#8, 0x04#8] = .ok (.sbr 3 4, []) := by decide
theorem test_decode_sbr : decode .copyCode 2 [0b00100000#8, 0b00000001#8] = .ok (.sbr 5 1, []) := by decide
theorem test_decode_sbr_far : decode .copyCode 4 [0b00001111#8, 0b11111111#8] = .ok (.sbr 3 4095, []) := by decide
theorem test_decode_lit : decode .copyCode 0 [0b10111111#8, 1] = .ok (.lit 63, [1]) := by decide
theorem test_decode_end : decode .copyCode 0 [0b10000000#8] = .ok (.endMark, []) := by decide
theorem test_decode_mcp : decode .copyCode 2 [0b11111101#8, 0x02#8, 0x01#8] = .ok (.mcp 64 258, []) := by decide
theorem test_decode_fill : decode .copyCode 0 [0b11111110#8, 0x00#8, 0x01#8, 0x77#8] = .ok (.fill 256 0x77, []) := by
  decide
theorem test_decode_vcp :
    decode .copyCode 2 [0b11111111#8, 0xFF#8, 0xFF#8, 0x03#8, 0x00#8] = .ok (.vcp 65535 3, []) := by decide
theorem test_decode_rlit : decode .runLength 0 [0b00000011#8, 0x61#8] = .ok (.rlit 3, [0x61#8]) := by decide
theorem test_decode_rrep : decode .runLength 0 [0b11111111#8, 0x39#8] = .ok (.rrep 1 0x39, []) := by decide
theorem test_decode_rxt : decode .runLength 0 [0b00000000#8, 0x01#8, 0x00#8, 0x44#8] = .ok (.rxt 256 0x44, []) := by
  decide
theorem test_decode_truncated :
    decode .copyCode 0 [0xFE#8, 0x04#8, 0x00#8] = .error .truncated ∧ decode .runLength 0 [] = .error .empty ∧
    decode .none 0 [0x80#8] = .error .noDecoder := by decide

/-- One word of each row of the opcode table, at the row's width. -/
theorem test_table_words :
    decodeTableWord 8 0x00 = some .rel ∧ decodeTableWord 16 0x0120 = some (.sbr 5 1) ∧
    decodeTableWord 8 0x83 = some (.lit 3) ∧ decodeTableWord 8 0x80 = some .endMark ∧
    decodeTableWord 24 0x0000C1 = some (.mcp 4 0) ∧ decodeTableWord 32 0x5A0003FE = some (.fill 3 0x5A) ∧
    decodeTableWord 40 0x00010005FF = some (.vcp 5 1) ∧ decodeTableWord 8 0x03 = some (.rlit 3) ∧
    decodeTableWord 16 0x6480 = some (.rrep 128 0x64) ∧ decodeTableWord 32 0x65040000 = some (.rxt 4 0x65) := by
  decide +kernel

/-! ### The assembler of R86 -/

/-- Program P1 of 95_test_vectors.md. -/
theorem test_assemble_p1 :
    assemble .copyCode
      [.cmd (.lit 2) [0x41#8, 0x42#8], .cmd (.mcp 4 0) [], .cmd (.fill 3 0x5A) [], .cmd .endMark []] =
    .ok [0x82#8, 0x41#8, 0x42#8, 0xC1#8, 0x00#8, 0x00#8, 0xFE#8, 0x03#8, 0x00#8, 0x5A#8, 0x80#8] := by decide

theorem test_assemble_refuses :
    assemble .copyCode [.cmd .endMark [], .cmd .rel []] = .error .relNotFirst ∧
    assemble .copyCode [.cmd (.sbr 3 255) []] = .error .readsAsRel ∧
    assemble .copyCode [.cmd (.rrep 2 0) []] = .error .otherDecoder ∧
    assemble .runLength [.cmd (.rlit 2) [0x61#8]] = .error .operandOutOfRange := by decide

/-! ### One command on a small job -/

/-- A running job before a step: IN holds `input`, OUT has `target` bytes and holds `output` so far. -/
def job (d : Decoder) (m : Mode) (input output : List Byte) (target pos : Nat) : State :=
  { State.reset with
    inMem := Memory.writeBytes .inStream [] 0 input
    inLen := BitVec.ofNat 32 input.length
    inPos := BitVec.ofNat 32 pos
    outMem := Memory.writeBytes .outBuffer [] 0 output
    outSize := BitVec.ofNat 32 target
    targetSize := BitVec.ofNat 32 target
    writePos := BitVec.ofNat 32 output.length
    mode := m
    decoder := d
    phase := .busy }

/-- A step gave a next state with this REASON, IN_POS, WRITE_POS and OUT (up to WRITE_POS), PHASE as REASON says. -/
def gives (o : Host.Outcome State Fault Refusal) (reason : Reason) (inPos writePos : Nat) (output : List Byte) :
    Bool :=
  match o with
  | .next t =>
    t.reason = reason && t.phase = (if reason = .none then .busy else .done) && t.inPos.toNat = inPos &&
      t.writePos.toNat = writePos && (List.range writePos).map t.outByte = output
  | .fault _ => false
  | .refused _ => false

/-- V-M2, as a step of an unresolved job: REL is consumed and selects Relative. -/
theorem test_rel : exec .rel (job .copyCode .absolute [0x00#8] [] 4 0) =
    .next { job .copyCode .absolute [0x00#8] [] 4 1 with mode := .relative } := rfl
/-- V-M4: a first byte that is not 0x00 is left for the first step. -/
theorem test_no_rel : resolveMode (job .copyCode .absolute [0x81#8, 0x55#8] [] 0 0) =
    .next (job .copyCode .absolute [0x81#8, 0x55#8] [] 0 0) := rfl

/-- E-1: the self-overlapping copy. -/
theorem test_sbr : gives (step (job .copyCode .absolute [0x81#8, 0x41#8, 0x20#8, 0x01#8, 0x80#8] [0x41#8] 8 2))
    .none 4 6 [0x41#8, 0x41#8, 0x41#8, 0x41#8, 0x41#8, 0x41#8] = true := by decide
/-- V-S4: a distance greater than WRITE_POS. -/
theorem test_sbr_bad : gives (step (job .copyCode .absolute [0x81#8, 0x41#8, 0x00#8, 0x02#8] [0x41#8] 4 2))
    .badReference 4 1 [0x41#8] = true := by decide

/-- V-L2: the literals that are there are copied. -/
theorem test_lit_cut : gives (step (job .copyCode .absolute [0x85#8, 1, 2, 3] [] 8 0))
    .truncatedInput 4 3 [1, 2, 3] = true := by decide
/-- V-L3: the literals that do not fit are not consumed. -/
theorem test_lit_full : gives (step (job .copyCode .absolute [0x85#8, 1, 2, 3, 4, 5] [] 3 0))
    .outputExhausted 4 3 [1, 2, 3] = true := by decide

/-- V-L4: nothing after END is read. -/
theorem test_end :
    gives (step (job .copyCode .absolute [0x82#8, 0xAA#8, 0xBB#8, 0x80#8, 0x81#8, 0xCC#8] [0xAA#8, 0xBB#8] 6 3))
      .endMarker 4 2 [0xAA#8, 0xBB#8] = true := by decide

/-- V-C1: Absolute, overlapping. -/
theorem test_mcp_absolute :
    gives (step (job .copyCode .absolute [0x82#8, 0x10#8, 0x20#8, 0xC1#8, 0x00#8, 0x00#8] [0x10#8, 0x20#8] 8 3))
      .none 6 6 [0x10#8, 0x20#8, 0x10#8, 0x20#8, 0x10#8, 0x20#8] = true := by decide
/-- V-C5: Relative, a source of -1. -/
theorem test_mcp_relative :
    gives (step (job .copyCode .relative [0x00#8, 0x82#8, 0x10#8, 0x20#8, 0xC0#8, 0x03#8, 0x00#8] [0x10#8, 0x20#8] 8 4))
      .badReference 7 2 [0x10#8, 0x20#8] = true := by decide

/-- V-F1: the count is little-endian. -/
theorem test_fill : gives (step (job .copyCode .absolute [0xFE#8, 0x04#8, 0x00#8, 0x99#8] [] 6 0))
    .none 4 4 [0x99#8, 0x99#8, 0x99#8, 0x99#8] = true := by decide
/-- V-F5: half a count is consumed. -/
theorem test_fill_cut : gives (step (job .copyCode .absolute [0xFE#8, 0x04#8] [] 6 0)) .truncatedInput 2 0 [] = true := by
  decide

/-- V-X2: Relative, period 2. -/
theorem test_vcp :
    gives (step (job .copyCode .relative [0x00#8, 0x82#8, 1, 2, 0xFF#8, 0x04#8, 0x00#8, 0x02#8, 0x00#8] [1, 2] 8 4))
      .none 9 6 [1, 2, 1, 2, 1, 2] = true := by decide
/-- V-X3: n = 0 checks nothing. -/
theorem test_vcp_none :
    gives (step (job .copyCode .absolute [0x81#8, 0x5A#8, 0xFF#8, 0x00#8, 0x00#8, 0x09#8, 0x00#8, 0x81#8, 0x33#8]
        [0x5A#8] 4 2))
      .none 7 1 [0x5A#8] = true := by decide

/-- V-R1. -/
theorem test_rlit : gives (step (job .runLength .absolute [0x03#8, 0x61#8, 0x62#8, 0x63#8] [] 5 0))
    .none 4 3 [0x61#8, 0x62#8, 0x63#8] = true := by decide
/-- V-R3: a partial literal run. -/
theorem test_rlit_cut : gives (step (job .runLength .absolute [0x04#8, 0x61#8, 0x62#8] [] 8 0))
    .truncatedInput 3 2 [0x61#8, 0x62#8] = true := by decide

/-- V-R4: 0xFF is a run of 1. -/
theorem test_rrep : gives (step (job .runLength .absolute [0xFF#8, 0x39#8] [] 4 0)) .none 2 1 [0x39#8] = true := by
  decide
/-- V-R6: a run of 128 is clamped. -/
theorem test_rrep_full : gives (step (job .runLength .absolute [0x80#8, 0x39#8] [] 5 0))
    .outputExhausted 2 5 [0x39#8, 0x39#8, 0x39#8, 0x39#8, 0x39#8] = true := by decide

/-- E-3a: the count is big-endian. -/
theorem test_rxt : gives (step (job .runLength .absolute [0x00#8, 0x00#8, 0x05#8, 0x41#8] [] 8 0))
    .none 4 5 [0x41#8, 0x41#8, 0x41#8, 0x41#8, 0x41#8] = true := by decide
/-- V-R14: the high count byte is consumed, the low one is missing. -/
theorem test_rxt_cut : gives (step (job .runLength .absolute [0x00#8, 0x05#8] [] 8 0)) .truncatedInput 2 0 [] = true := by
  decide

/-- The very next step after a table word is placed runs it. -/
theorem test_withFetchWord :
    gives (step (State.reset.withFetchWord 32 0x5A0003FE)) .none 4 3 [0x5A#8, 0x5A#8, 0x5A#8] = true ∧
    gives (step (State.reset.withFetchWord 16 0x6480)) .none 2 128 (List.replicate 128 0x64#8) = true ∧
    gives (step (State.reset.withFetchWord 16 0x0000)) .badReference 3 0 [] = true := by decide +kernel

/-! ### Witnesses: encoding -/

theorem test_witness_DecodeOfEncode :
    ((Instr.sbr 3 0).wellFormed = true ∧ (Instr.sbr 3 0).placeable 1 = true) ∧
    ((Instr.sbr 10 4095).wellFormed = true ∧ (Instr.sbr 10 4095).placeable 0 = true) ∧
    (Instr.rel.wellFormed = true ∧ Instr.rel.placeable 0 = true) ∧
    ((Instr.mcp 64 0xFFFF).wellFormed = true ∧ (Instr.mcp 64 0xFFFF).placeable 0 = true) ∧
    ((Instr.rrep 128 0).wellFormed = true ∧ (Instr.rrep 128 0).placeable 0 = true) ∧
    ((Instr.rxt 0 0).wellFormed = true ∧ (Instr.rxt 0 0).placeable 0 = true) := by decide
theorem test_witness_EncodeOfDecode : decode .runLength 0 [0x80#8, 0x39#8, 0x7F#8] = .ok (.rrep 128 0x39, [0x7F#8]) := by
  decide
theorem test_witness_EveryByteIsACommand :
    Decoder.copyCode ≠ .none ∧ longestOperands ≤ [0x00#8, 0x00#8, 0x00#8, 0x00#8].length + 1 := by decide
theorem test_witness_FirstByteFixesLength :
    decode .copyCode 3 [0xC0#8, 1, 2] = .ok (.mcp 3 0x0201, []) ∧
    decode .copyCode 3 [0xC0#8, 3, 4, 5] = .ok (.mcp 3 0x0403, [5]) := by decide
/-- Every clause at both ends of its range. -/
theorem test_witness_CopyCodeFormats :
    ¬((1 : Nat) = 0 ∧ (0x00#8 : Byte) = 0x00#8) ∧ (0x00#8).toNat < 0x80 ∧
    ¬((0 : Nat) = 0 ∧ (0x7F#8 : Byte) = 0x00#8) ∧ (0x7F#8).toNat < 0x80 ∧ (0x80#8).toNat = 0x80 ∧
    (0x81 ≤ (0x81#8).toNat ∧ (0x81#8).toNat ≤ 0xBF) ∧ (0x81 ≤ (0xBF#8).toNat ∧ (0xBF#8).toNat ≤ 0xBF) ∧
    (0xC0 ≤ (0xC0#8).toNat ∧ (0xC0#8).toNat ≤ 0xFD) ∧ (0xC0 ≤ (0xFD#8).toNat ∧ (0xFD#8).toNat ≤ 0xFD) ∧
    (0xFE#8).toNat = 0xFE ∧ (0xFF#8).toNat = 0xFF := by decide
theorem test_witness_RunLengthFormats :
    (0x01 ≤ (0x01#8).toNat ∧ (0x01#8).toNat ≤ 0x7F) ∧ (0x01 ≤ (0x7F#8).toNat ∧ (0x7F#8).toNat ≤ 0x7F) ∧
    0x80 ≤ (0x80#8).toNat ∧ 0x80 ≤ (0xFF#8).toNat ∧ (0x00#8).toNat = 0x00 := by decide
theorem test_witness_RelPrefixPosition :
    decode .copyCode 0 [0x00#8, 0x80#8] = .ok (.rel, [0x80#8]) ∧
    decode .copyCode 1 [0x00#8, 0x80#8] ≠ .ok (.rel, [0x80#8]) := by decide
theorem test_witness_AssembledLineIsReadBack :
    assembleFrom .copyCode 0 (.cmd (.lit 2) [0x41#8, 0x42#8] :: [.cmd .endMark []]) =
      .ok [0x82#8, 0x41#8, 0x42#8, 0x80#8] := by decide
theorem test_witness_AbsoluteStreamNeverReadsAsRel :
    Instr.sbr 3 256 ≠ .rel ∧ assemble .copyCode (.cmd (.sbr 3 256) [] :: []) = .ok [0x01#8, 0x00#8] := by decide

/-! ### Witnesses: primitives -/

theorem test_witness_RaiseStopEffect :
    raiseStop .badReference State.reset = { State.reset with reason := .badReference, phase := .done } := by decide


/-- At the last byte of IN, and past it. -/
theorem test_witness_Fetch8Effect :
    (let s := job .copyCode .absolute [1] [] 4 1; s.inLen.toNat ≤ s.inPos.toNat) ∧
    (let s := job .copyCode .absolute [1] [] 4 0; s.inPos.toNat < s.inLen.toNat) := by decide

/-- Two bytes, one byte and no byte left. -/
theorem test_witness_LittleEndianFetch :
    (let s := job .copyCode .absolute [1, 2] [] 4 0
     s.inPos.toNat ≤ s.inLen.toNat ∧ s.inPos.toNat + 2 ≤ s.inLen.toNat) ∧
    (let s := job .copyCode .absolute [1, 2] [] 4 1
     s.inPos.toNat ≤ s.inLen.toNat ∧ s.inLen.toNat < s.inPos.toNat + 2) ∧
    (let s := job .copyCode .absolute [1, 2] [] 4 2
     s.inPos.toNat ≤ s.inLen.toNat ∧ s.inLen.toNat < s.inPos.toNat + 2) := by decide
theorem test_witness_BigEndianFetch :
    (let s := job .runLength .absolute [1, 2] [] 4 0
     s.inPos.toNat ≤ s.inLen.toNat ∧ s.inPos.toNat + 2 ≤ s.inLen.toNat) ∧
    (let s := job .runLength .absolute [1, 2] [] 4 1
     s.inPos.toNat ≤ s.inLen.toNat ∧ s.inLen.toNat < s.inPos.toNat + 2) ∧
    (let s := job .runLength .absolute [1, 2] [] 4 2
     s.inPos.toNat ≤ s.inLen.toNat ∧ s.inLen.toNat < s.inPos.toNat + 2) := by decide

/-- OUT full, and one byte short of it. -/
theorem test_witness_PutEffect :
    ((job .copyCode .absolute [] [7, 0] 2 0).OutReady ∧ (job .copyCode .absolute [] [7, 0] 2 0).room = 0) ∧
    ((job .copyCode .absolute [] [7] 2 0).OutReady ∧ 0 < (job .copyCode .absolute [] [7] 2 0).room) := by
  unfold State.OutReady State.room; decide
theorem test_witness_ResolveSource :
    (job .copyCode .relative [] [] 2 0).mode = .relative ∧ (job .copyCode .absolute [] [] 2 0).mode = .absolute := by
  decide

/-! ### Witnesses: commands -/

theorem test_witness_RelSelectsRelative :
    (job .copyCode .absolute [0x00#8] [] 4 0).inPos.toNat + 1 ≤ (job .copyCode .absolute [0x00#8] [] 4 0).inLen.toNat := by
  decide

/-- V-S3, V-S4 and the distance between them, with room and with OUT full. -/
theorem test_witness_SbrCopiesBack :
    (job .copyCode .absolute [0x00#8, 0x00#8] [0x41#8] 4 0).Ready 2 ∧
    (job .copyCode .absolute [0x00#8, 0x01#8] [0x41#8] 1 0).Ready 2 ∧
    (let s := job .copyCode .absolute [0x00#8, 0x02#8] [0x41#8] 4 0
     (3 : Nat) ≠ 0 ∧ s.room ≠ 0 ∧ s.reason ≠ .badReference ∧ s.writePos.toNat < (2#12).toNat ∧
       ¬ s.writePos.toNat < (1#12).toNat) := by
  unfold State.Ready State.OutReady State.room; decide
theorem test_witness_LitCopies : (job .copyCode .absolute [0x85#8, 1, 2, 3] [] 8 0).Ready 1 := by
  unfold State.Ready State.OutReady; decide
theorem test_witness_EndMarkStops :
    (job .copyCode .absolute [0x80#8] [] 4 0).inPos.toNat + 1 ≤ (job .copyCode .absolute [0x80#8] [] 4 0).inLen.toNat := by
  decide
theorem test_witness_McpCopiesBack :
    (job .copyCode .relative [0xC1#8, 0x01#8, 0x00#8] [0x10#8, 0x20#8] 8 0).Ready 3 ∧
    (job .copyCode .absolute [0xC1#8, 0x00#8, 0x00#8] [0x10#8, 0x20#8] 2 0).Ready 3 := by
  unfold State.Ready State.OutReady; decide
theorem test_witness_FillWrites : (job .copyCode .absolute [0xFE#8, 4, 0, 0x99#8] [] 6 0).Ready 4 := by
  unfold State.Ready State.OutReady; decide
theorem test_witness_VcpCopiesBack :
    (job .copyCode .relative [0xFF#8, 4, 0, 2, 0] [1, 2] 8 0).Ready 5 ∧
    (job .copyCode .absolute [0xFF#8, 4, 0, 2, 0] [1, 2] 8 0).Ready 5 := by
  unfold State.Ready State.OutReady; decide
theorem test_witness_RlitCopies : (job .runLength .absolute [0x03#8, 0x61#8, 0x62#8, 0x63#8] [] 5 0).Ready 1 := by
  unfold State.Ready State.OutReady; decide
theorem test_witness_RrepWrites : (job .runLength .absolute [0xFF#8, 0x39#8] [] 4 0).Ready 2 := by
  unfold State.Ready State.OutReady; decide
theorem test_witness_RxtWrites : (job .runLength .absolute [0, 0, 5, 0x41#8] [] 8 0).Ready 4 := by
  unfold State.Ready State.OutReady; decide

/-- Each of the three commands, with the bytes it writes. -/
theorem test_witness_CopiesReadTheirOwnOutput :
    (let s := job .copyCode .absolute [0x20#8, 1] [0x41#8] 8 0
     s.Ready (Instr.sbr 5 1).size ∧ 0 < s.writePos.toNat ∧ ((0 : Nat) : Int) = distanceSource 1 s ∧
       gives (exec (.sbr 5 1) s) .none 2 6 (List.replicate 6 0x41#8) = true) ∧
    (let s := job .copyCode .absolute [0xC1#8, 0, 0] [0x41#8] 8 0
     s.Ready (Instr.mcp 4 0).size ∧ 0 < s.writePos.toNat ∧ ((0 : Nat) : Int) = resolve 0 s ∧
       gives (exec (.mcp 4 0) s) .none 3 5 (List.replicate 5 0x41#8) = true) ∧
    (let s := job .copyCode .relative [0xFF#8, 4, 0, 1, 0] [0x41#8] 8 0
     s.Ready (Instr.vcp 4 1).size ∧ 0 < s.writePos.toNat ∧ ((0 : Nat) : Int) = resolve 1 s ∧
       gives (exec (.vcp 4 1) s) .none 5 5 (List.replicate 5 0x41#8) = true) := by
  unfold State.Ready State.OutReady; decide
theorem test_witness_EveryCommandsFrame :
    (exec (.rrep 1 0x39) (job .runLength .absolute [0xFF#8, 0x39#8] [] 4 0) =
      .next (job .runLength .absolute [0xFF#8, 0x39#8] [0x39#8] 4 2)) ∧
    Instr.rrep 1 0x39 ≠ .rel := ⟨rfl, by decide⟩
theorem test_witness_ModeOnlyResolvesDat :
    Instr.sbr 3 1 ≠ .rel ∧ (∀ count dat, Instr.sbr 3 1 ≠ .mcp count dat) ∧ (∀ n dat, Instr.sbr 3 1 ≠ .vcp n dat) ∧
    exec (.sbr 3 1) (job .copyCode .absolute [0x00#8, 1] [0x41#8] 4 0) =
      .next (job .copyCode .absolute [0x00#8, 1] [0x41#8, 0x41#8, 0x41#8, 0x41#8] 4 2) :=
  ⟨by decide, fun _ _ h => (nomatch h), fun _ _ h => (nomatch h), rfl⟩

/-! ### Witnesses: steps -/

theorem test_witness_StepRunsDecodedInstruction :
    (let s := job .runLength .absolute [0xFF#8, 0x39#8] [] 4 0
     s.Running ∧ s.writePos ≠ s.targetSize ∧ s.inPos ≠ s.inLen ∧
       decode s.decoder s.inPos.toNat (operandWindow s) = .ok (.rrep 1 0x39, [])) := by
  unfold State.Running; decide
theorem test_witness_StepRunsEncodedBytes :
    (let s := job .copyCode .absolute [0x81#8, 0x41#8, 0x00#8, 0x01#8] [0x41#8] 4 2
     s.Running ∧ s.writePos ≠ s.targetSize ∧ (Instr.sbr 3 1).wellFormed = true ∧ (Instr.sbr 3 1).decoder = s.decoder ∧
       (Instr.sbr 3 1).placeable s.inPos.toNat = true ∧ s.inPos.toNat + (Instr.sbr 3 1).size ≤ s.inLen.toNat ∧
       ∀ k, k < (Instr.sbr 3 1).size → (encode (.sbr 3 1))[k]? = some (s.inByte (s.inPos.toNat + k))) := by
  unfold State.Running; decide
/-- V-P1 (full and exhausted at once) and V-M1 (exhausted only). -/
theorem test_witness_StepTopOrder :
    (let s := job .copyCode .absolute [0x81#8, 0x41#8] [0x41#8] 1 2
     s.Running ∧ s.writePos = s.targetSize ∧ s.inPos = s.inLen) ∧
    (let s := job .copyCode .absolute [] [] 4 0; s.Running ∧ s.writePos ≠ s.targetSize ∧ s.inPos = s.inLen) := by
  unfold State.Running; decide
/-- V-X6: the last operand byte is missing. -/
theorem test_witness_OperandTruncation :
    (let s := job .copyCode .absolute [0x81#8, 0x5A#8, 0xFF#8, 5, 0, 0] [0x5A#8] 8 2
     let i := Instr.vcp 5 0
     s.Running ∧ s.decoder ≠ .none ∧ s.writePos ≠ s.targetSize ∧ s.inPos.toNat < s.inLen.toNat ∧
       i.wellFormed = true ∧ i.decoder = s.decoder ∧ i.placeable s.inPos.toNat = true ∧
       s.inLen.toNat < s.inPos.toNat + i.size ∧ (encode i)[0]? = some (s.inByte s.inPos.toNat)) := by
  unfold State.Running; decide
theorem test_witness_CcdStepIsPseudocode :
    (let s := job .copyCode .absolute [0xFE#8, 4, 0, 0x99#8] [] 6 0
     s.Running ∧ s.decoder = .copyCode ∧ ¬(s.inPos = 0 ∧ s.inLen ≠ 0 ∧ s.inByte 0 = 0x00#8) ∧ (ccdStep s).outcome = step s) :=
  ⟨⟨rfl, rfl⟩, rfl, by decide, rfl⟩
theorem test_witness_RldStepIsPseudocode :
    (let s := job .runLength .absolute [0, 0, 5, 0x41#8] [] 8 0
     s.Running ∧ s.decoder = .runLength ∧ (rldStep s).outcome = step s) :=
  ⟨⟨rfl, rfl⟩, rfl, rfl⟩

/-! ### Witnesses: jobs and the host -/

/-- An engine whose COMP_TYPE is a given code; IN_LEN and TARGET_SIZE are 0, so no capacity refuses its START. -/
def coded (code : Half) : State := { State.reset with compType := code }

/-- A code of no decoder: one of three is neither of the two. -/
def unsupportedCode : Half :=
  if Config.compressionTypeMap 0 = .unsupported then 0
  else if Config.compressionTypeMap 1 = .unsupported then 1 else 2

theorem runLengthCode_ne : Config.runLengthCode ≠ Config.copyCodeCode := by
  unfold Config.runLengthCode
  split
  · intro h
    have := congrArg (· - Config.copyCodeCode) h
    simp at this
  · assumption

theorem map_copyCode : Config.compressionTypeMap Config.copyCodeCode = .copyCode := by simp [Config.compressionTypeMap]
theorem map_runLength : Config.compressionTypeMap Config.runLengthCode = .runLength := by
  simp [Config.compressionTypeMap, runLengthCode_ne]
theorem map_unsupported : Config.compressionTypeMap unsupportedCode = .unsupported := by
  unfold unsupportedCode
  split
  · assumption
  split
  · assumption
  next h0 h1 =>
    unfold Config.compressionTypeMap at *
    generalize Config.copyCodeCode = a at *
    generalize Config.runLengthCode = b at *
    by_cases c0 : (0 : Half) = a <;> by_cases d0 : (0 : Half) = b <;> by_cases c1 : (1 : Half) = a <;>
      by_cases d1 : (1 : Half) = b <;> subst_vars <;> simp_all

theorem test_witness_StartBeginsJob :
    (coded Config.copyCodeCode).phase ≠ .busy ∧ (1#32).getLsbD 0 = true ∧
    act (.writeReg .ctrl 1) (coded Config.copyCodeCode) =
      .next { coded Config.copyCodeCode with phase := .busy, decoder := .copyCode } ∧
    act (.writeReg .ctrl 1) (coded Config.runLengthCode) =
      .next { coded Config.runLengthCode with phase := .busy, decoder := .runLength } := by
  refine ⟨by decide, by decide, ?_, ?_⟩
  · simp [act, hostWriteReg, start, beginJob, coded, State.reset, map_copyCode, clearCursors, zeroFill, resolveMode]
  · simp [act, hostWriteReg, start, beginJob, coded, State.reset, map_runLength, clearCursors, zeroFill]
/-- V-M2's START, where the capacity takes one byte: REL is consumed. -/
theorem test_witness_StartBeginsJob_rel (h : 1 ≤ Config.inCapacity.toNat) :
    act (.writeReg .ctrl 1)
        { coded Config.copyCodeCode with inLen := 1, inMem := Memory.write .inStream [] 0 0x00#8 } =
      .next { coded Config.copyCodeCode with
        inLen := 1, inMem := Memory.write .inStream [] 0 0x00#8, phase := .busy, decoder := .copyCode,
        mode := .relative, inPos := 1 } := by
  have hb : State.inByte
      { coded Config.copyCodeCode with inLen := 1, inMem := Memory.write .inStream [] 0 0x00#8 } 0 = 0x00#8 := rfl
  have hc : ¬(Config.inCapacity.toNat < (1#32).toNat ∨ Config.outCapacity.toNat < (0#32).toNat) := by
    simp; omega
  simp only [act, hostWriteReg, start]
  rw [if_neg (by decide), if_pos (by decide), if_neg (by exact hc)]
  change beginJob (Config.compressionTypeMap Config.copyCodeCode) _ = _
  rw [map_copyCode]
  exact resolveMode_rel (by exact (by decide : 1 ≤ (1#32).toNat)) (by exact hb)
theorem test_witness_UnsupportedFormatLeavesOut :
    (coded unsupportedCode).phase ≠ .busy ∧ (1#32).getLsbD 0 = true ∧
    (coded unsupportedCode).inLen.toNat ≤ Config.inCapacity.toNat ∧
    (coded unsupportedCode).targetSize.toNat ≤ Config.outCapacity.toNat ∧
    Config.compressionTypeMap (coded unsupportedCode).compType = .unsupported :=
  ⟨by decide, by decide, Nat.zero_le _, Nat.zero_le _, map_unsupported⟩
theorem test_witness_BusyIgnoresHostWrites : (job .copyCode .absolute [] [] 4 0).phase = .busy := by decide
theorem test_witness_HostWritesRegisters :
    State.reset.phase ≠ .busy ∧ (0xFFFFFFFE#32).getLsbD 0 = false := by decide
/-- V-H2's read: STATUS while IDLE; CTRL while BUSY; and STATUS while BUSY, which draws. -/
theorem test_witness_HostReadsRegisters :
    State.reset.phase ≠ .busy ∧ act (.readReg .status) State.reset = .next State.reset ∧
    act (.readReg .ctrl) (job .copyCode .absolute [] [] 4 0) = .next (job .copyCode .absolute [] [] 4 0) ∧
    (job .copyCode .absolute [] [] 4 0).phase = .busy ∧ HostReg.status ≠ .ctrl ∧
    (hostReadReg .status (job .copyCode .absolute [] [] 4 0)).draws = 1 :=
  ⟨by decide, rfl, rfl, by decide, by decide, rfl⟩
/-- The result of V-F1: its last byte and the index past it; and a job that runs. -/
theorem test_witness_HostReadsResult :
    (let s := { job .copyCode .absolute [0xFE#8, 4, 0, 0x99#8] [0x99#8, 0x99#8, 0x99#8, 0x99#8] 6 4 with
        phase := .done, reason := .inputEnd }
     (s.phase = .done ∧ s.decoder ≠ .none ∧ (5#32).toNat < s.outSize.toNat) ∧ s.outSize.toNat ≤ (6#32).toNat) ∧
    (job .copyCode .absolute [] [] 6 0).phase ≠ .done := by decide
theorem test_witness_HostLoadsIn : State.reset.phase ≠ .busy ∧ Memory.wf .inStream State.reset.inMem := by decide
theorem test_witness_QuietWhenNotBusy : State.reset.phase ≠ .busy ∧ State.reset.host = [] := by decide
theorem test_witness_HostActionsInOrder :
    (let s := { job .copyCode .absolute [] [] 4 0 with host := [.engineTurn, .reset] }
     s.host = .engineTurn :: [.reset] ∧ s.phase = .busy) := by decide

/-! ### Witnesses: whole-machine rules -/

/-- A running job that meets the invariant: V-F1. -/
def runningJob : State := job .copyCode .absolute [0xFE#8, 4, 0, 0x99#8] [] 6 0

theorem runningJob_inv : runningJob.Inv := by
  constructor <;> unfold runningJob <;> decide

/-- A running RLD job that meets the invariant, at its end: V-R4. -/
def endingJob : State := job .runLength .absolute [0xFF#8, 0x39#8] [0x39#8] 4 2

theorem endingJob_inv : endingJob.Inv := by
  constructor <;> unfold endingJob <;> decide

theorem test_witness_InvariantKept :
    runningJob.Inv ∧ gives (step runningJob) .none 4 4 (List.replicate 4 0x99#8) = true :=
  ⟨runningJob_inv, by decide⟩
theorem test_witness_InvariantExcludesFaults : runningJob.Inv ∧ endingJob.Inv := ⟨runningJob_inv, endingJob_inv⟩
theorem test_witness_CursorProgress :
    runningJob.Inv ∧ runningJob.Running ∧ runningJob.writePos ≠ runningJob.targetSize ∧
    runningJob.inPos ≠ runningJob.inLen ∧ gives (step runningJob) .none 4 4 (List.replicate 4 0x99#8) = true :=
  ⟨runningJob_inv, ⟨by decide, by decide⟩, by decide, by decide, by decide⟩
theorem test_witness_EveryJobEnds : runningJob.Inv ∧ runningJob.Running := ⟨runningJob_inv, by decide, by decide⟩
theorem test_witness_WholeJobIsTheMachinesRun :
    runningJob.Inv ∧ runningJob.host = [] ∧
    (match ccdJob runningJob with | .next u => u.reason = .inputEnd && u.writePos = 4 | _ => false) = true :=
  ⟨runningJob_inv, rfl, by decide⟩
/-- An engine after reset and one after an RLD job, both given an empty CCD job; one step ends it. -/
theorem test_witness_JobsDependOnlyOnInputs :
    (let s := coded Config.copyCodeCode
     let t := { endingJob with
        phase := .done, reason := .inputEnd, compType := Config.copyCodeCode, inLen := 0, targetSize := 0 }
     let s' := { s with phase := .busy, decoder := .copyCode }
     s.phase ≠ .busy ∧ t.phase ≠ .busy ∧ s.host = [] ∧ t.host = [] ∧ (1#32).getLsbD 0 = true ∧
       s.compType = t.compType ∧ s.inLen = t.inLen ∧ s.targetSize = t.targetSize ∧
       (∀ a, a < s.inLen.toNat → s.inByte a = t.inByte a) ∧ act (.writeReg .ctrl 1) s = .next s' ∧
       s'.decoder ≠ .none ∧
       Host.Core.run Sys2Proof.core 1 s' = .next { s' with phase := .done, reason := .outputExhausted }) := by
  refine ⟨by simp [coded, State.reset], by simp, rfl, rfl, rfl, rfl, rfl, rfl, fun a h => absurd h (Nat.not_lt_zero a), ?_,
    by simp, ?_⟩
  · exact test_witness_StartBeginsJob.2.2.1
  · rfl
theorem test_witness_RunLengthReasons :
    endingJob.Running ∧ endingJob.decoder = .runLength ∧ endingJob.reason = .none ∧
    step endingJob = .next { endingJob with phase := .done, reason := .inputEnd } :=
  ⟨⟨rfl, rfl⟩, rfl, rfl, rfl⟩
theorem test_witness_ResultIsZeroPadded :
    endingJob.Inv ∧ endingJob.Running ∧
    step endingJob = .next { endingJob with phase := .done, reason := .inputEnd } :=
  ⟨endingJob_inv, ⟨rfl, rfl⟩, rfl⟩
theorem test_witness_EnginesIndependent :
    Platform.stepEngine 1 [State.reset, endingJob] =
      .next [State.reset, { endingJob with phase := .done, reason := .inputEnd }] ∧
    [State.reset, endingJob][1]? = some endingJob ∧
    Platform.reset.wf :=
  ⟨rfl, rfl, Platform.reset_wf⟩

end Sys2Proof.Tests
end

section
/-!
PROOFS. The compression-type map (00_scope.md R9): which codes it sends to each decoder.
-/

namespace Sys2Proof

/-- The two codes are distinct whatever the two constants are (log 2): where the choice for RUN_LENGTH collides, the
code taken is the successor, and `+ 1` fixes no 16-bit word. -/
theorem Config.runLengthCode_ne_copyCodeCode : Config.runLengthCode ≠ Config.copyCodeCode := by
  unfold Config.runLengthCode
  split
  · simp
  · assumption

theorem Config.compressionTypeMap_eq_copyCode_iff (code : Half) :
    Config.compressionTypeMap code = .copyCode ↔ code = Config.copyCodeCode := by
  unfold Config.compressionTypeMap
  split_ifs with hcopy <;> simp [hcopy]

theorem Config.compressionTypeMap_eq_runLength_iff (code : Half) :
    Config.compressionTypeMap code = .runLength ↔ code = Config.runLengthCode := by
  unfold Config.compressionTypeMap
  split_ifs with hcopy hrun
  · simp [hcopy, Config.runLengthCode_ne_copyCodeCode.symm]
  · simp [hrun]
  · simp [hrun]

/-- Settles O48: each decoder's codes are those equal to its own constant. -/
theorem compressionMapOneCodeEach : Obligations.CompressionMapOneCodeEach := by
  unfold Obligations.CompressionMapOneCodeEach
  simp only [Config.compressionTypeMap_eq_copyCode_iff, Config.compressionTypeMap_eq_runLength_iff]
  exact ⟨existsUnique_eq, existsUnique_eq⟩

end Sys2Proof
end

section
/-!
PROOFS. The host's view of the registers and of OUT (10_state.md R30, R34, R35, 20_memory.md R66), and the state after
reset (R41).
-/

namespace Sys2Proof.Machine

/-- Settles O1: every register of the reset state by evaluation; no cell is listed in IN, and OUT is no result. -/
theorem resetValues : Obligations.ResetValues := by
  unfold Obligations.ResetValues
  exact ⟨rfl, rfl, rfl, rfl, rfl, rfl, rfl, rfl, rfl, rfl, fun _ => rfl, fun _ => rfl⟩

/-! ### STATUS -/

theorem Phase.code_lt (p : Phase) : p.code < 4 := by cases p <;> decide
theorem Reason.code_lt (r : Reason) : r.code < 8 := by cases r <;> decide
theorem Mode.code_lt (m : Mode) : m.code < 2 := by cases m <;> decide
theorem decoderCode_lt (d : Decoder) : decoderCode d < 4 := by cases d <;> decide

/-- STATUS as a number: the four codes fill its low eight bits, so the word does not wrap. -/
theorem statusWord_toNat (s : State) :
    (statusWord s).toNat = s.phase.code + s.reason.code * 4 + s.mode.code * 32 + decoderCode s.decoder * 64 := by
  have hp := s.phase.code_lt
  have hr := s.reason.code_lt
  have hm := s.mode.code_lt
  have hd := decoderCode_lt s.decoder
  rw [statusWord, BitVec.toNat_ofNat]
  omega

/-- STATUS uses its low eight bits only. -/
theorem statusWord_lt (s : State) : (statusWord s).toNat < 2 ^ 8 := by
  have hp := s.phase.code_lt
  have hr := s.reason.code_lt
  have hm := s.mode.code_lt
  have hd := decoderCode_lt s.decoder
  rw [statusWord_toNat]
  omega

/-- Settles O43: each field is a quotient and a remainder of STATUS as a number. -/
theorem statusFields : Obligations.StatusFields := by
  unfold Obligations.StatusFields
  intro s
  have hp := s.phase.code_lt
  have hr := s.reason.code_lt
  have hm := s.mode.code_lt
  have hd := decoderCode_lt s.decoder
  have hfield : ∀ start len, ((statusWord s).extractLsb' start len).toNat =
      (s.phase.code + s.reason.code * 4 + s.mode.code * 32 + decoderCode s.decoder * 64) / 2 ^ start % 2 ^ len := by
    intro start len
    rw [BitVec.extractLsb'_toNat, Nat.shiftRight_eq_div_pow, statusWord_toNat]
  refine ⟨?_, ?_, ?_, ?_, BitVec.eq_of_toNat_eq ?_⟩ <;> rw [hfield]
  · change _ = s.phase.code
    omega
  · change _ = s.reason.code
    omega
  · change _ = s.mode.code
    omega
  · change _ = decoderCode s.decoder
    omega
  · change _ = 0
    omega

/-! ### The host's reads and writes -/

theorem hostReadReg_busy {r : HostReg} {s : State} (h : s.phase = .busy) (hr : r ≠ .ctrl) :
    hostReadReg r s = hostDraws r.listedBits s := if_pos ⟨h, hr⟩

/-- A word below 2 ^ n has no bit outside its low n bits. -/
theorem and_not_lowBits {v : Word} {n : Nat} (hv : v.toNat < 2 ^ n) (hn : n ≤ 32) :
    v &&& ~~~(BitVec.ofNat 32 (2 ^ n - 1)) = 0 := by
  have hmask : v &&& BitVec.ofNat 32 (2 ^ n - 1) = v := by
    apply BitVec.eq_of_toNat_eq
    have hpow : 2 ^ n ≤ 2 ^ 32 := Nat.pow_le_pow_right (by decide) hn
    rw [BitVec.toNat_and, BitVec.toNat_ofNat, Nat.mod_eq_of_lt (by omega)]
    exact Nat.and_two_pow_sub_one_of_lt_two_pow hv
  calc v &&& ~~~(BitVec.ofNat 32 (2 ^ n - 1))
      = v &&& BitVec.ofNat 32 (2 ^ n - 1) &&& ~~~(BitVec.ofNat 32 (2 ^ n - 1)) := by rw [hmask]
    _ = 0 := by rw [BitVec.and_assoc, BitVec.and_not_self]; exact BitVec.and_zero

/-- A register holds nothing outside the bits that R30 lists for it. -/
theorem registerValue_unlisted (r : HostReg) (s : State) : registerValue r s &&& ~~~r.listedBits = 0 := by
  cases r with
  | ctrl => exact BitVec.zero_and
  | compType =>
    refine and_not_lowBits (n := 16) ?_ (by decide)
    have hcode := s.compType.isLt
    simp only [registerValue, BitVec.toNat_setWidth]
    omega
  | inLen => exact and_not_lowBits (n := 32) s.inLen.isLt le_rfl
  | targetSize => exact and_not_lowBits (n := 32) s.targetSize.isLt le_rfl
  | status => exact and_not_lowBits (n := 8) (statusWord_lt s) (by decide)
  | inPos => exact and_not_lowBits (n := 32) s.inPos.isLt le_rfl
  | writePos => exact and_not_lowBits (n := 32) s.writePos.isLt le_rfl

/-- Settles O42: while BUSY every register but CTRL is a free draw under its mask; all other reads return the value. -/
theorem hostReadsRegisters : Obligations.HostReadsRegisters := by
  unfold Obligations.HostReadsRegisters
  intro r s
  refine ⟨hostReadReg r s, rfl, ?_⟩
  by_cases hdraw : s.phase = .busy ∧ r ≠ .ctrl
  · obtain ⟨hb, hr⟩ := hdraw
    rw [hostReadReg_busy hb hr]
    refine ⟨rfl, fun h => absurd h hr, fun h => absurd hb h, fun _ _ => ⟨rfl, rfl⟩, ?_⟩
    simp [BitVec.and_assoc]
  · have hval : hostReadReg r s = hostGets (registerValue r s) s := if_neg hdraw
    rw [hval]
    refine ⟨rfl, ?_, fun _ => ⟨rfl, rfl⟩, fun hb hr => absurd ⟨hb, hr⟩ hdraw, registerValue_unlisted r s⟩
    rintro rfl
    exact ⟨rfl, rfl⟩

/-- Settles O44: the read is of the result exactly when the three conditions of R35 and R66 hold. -/
theorem hostReadsResult : Obligations.HostReadsResult := by
  unfold Obligations.HostReadsResult
  intro a s
  refine ⟨hostReadOut a s, rfl, ?_⟩
  have hbyte := (s.outByte a.toNat).isLt
  by_cases hres : s.phase = .done ∧ s.decoder ≠ .none ∧ a.toNat < s.outSize.toNat
  · have hval : hostReadOut a s = hostGets ((s.outByte a.toNat).setWidth 32) s := if_pos hres
    obtain ⟨hp, hd, ha⟩ := hres
    have hnum : (((s.outByte a.toNat).setWidth 32 : Word)).toNat = (s.outByte a.toNat).toNat := by
      rw [BitVec.toNat_setWidth]; omega
    rw [hval]
    refine ⟨rfl, ?_, fun _ _ _ => ⟨hnum, rfl⟩, ?_⟩
    · rw [hostGets_hostData, hnum]; exact hbyte
    · rintro (h | h | h)
      · exact absurd hp h
      · exact absurd h hd
      · omega
  · have hval : hostReadOut a s = hostDraws 0xFF#32 s := if_neg hres
    rw [hval]
    refine ⟨rfl, ?_, fun hp hd ha => absurd ⟨hp, hd, ha⟩ hres, fun _ => ⟨rfl, rfl⟩⟩
    have hand : (Config.freeRead s.engine s.draws &&& 0xFF#32).toNat ≤ 0xFF := Nat.and_le_right
    rw [hostDraws_hostData]
    omega

theorem hostWriteReg_quiet_ctrl {v : Word} {s : State} (h : s.phase ≠ .busy) :
    hostWriteReg .ctrl v s = if v.getLsbD 0 then start s else .next s := if_neg h

/-- Settles O41: while not BUSY a write is what its register's row of R30 says. -/
theorem hostWritesRegisters : Obligations.HostWritesRegisters := by
  unfold Obligations.HostWritesRegisters
  intro v s h
  refine ⟨if_neg h, if_neg h, if_neg h, if_neg h, if_neg h, if_neg h, fun hv => ?_⟩
  change hostWriteReg .ctrl v s = _
  rw [hostWriteReg_quiet_ctrl h, hv]
  rfl

/-- Settles O49: no cell is listed, the cursors are 0, and PHASE = IDLE excuses the clauses on jobs. -/
theorem invariantAtReset : Obligations.InvariantAtReset := by
  unfold Obligations.InvariantAtReset
  obtain ⟨hin, hout⟩ := reset_memories_wf
  exact {
    inCanonical := hin
    outCanonical := hout
    outZeroAhead := fun h => absurd rfl h
    writeInside := fun h => absurd rfl h
    idle := fun _ => ⟨rfl, rfl⟩
    busy := fun h => by cases h
    prefixResolved := fun h => by cases h
    done := fun h => by cases h
    noDecoder := fun _ => ⟨rfl, rfl, rfl⟩
    runLength := fun h => by cases h }

end Sys2Proof.Machine
end

section
/-!
PROOFS. Job start (10_state.md R40, R108, R182): the state that a START of each kind leaves.
-/

namespace Sys2Proof.Machine

/-! ### Job start -/

/-- The state a CCD START leaves: a leading REL, where there is one, is consumed and selects Relative (R40, R108). -/
def copyCodeStarted (s : State) : State :=
  { s with
    inPos := if s.inLen ≠ 0 ∧ s.inByte 0 = 0x00#8 then 1 else 0
    writePos := 0
    mode := if s.inLen ≠ 0 ∧ s.inByte 0 = 0x00#8 then .relative else .absolute
    reason := .none, phase := .busy, decoder := .copyCode, outMem := [], outSize := s.targetSize }

/-- The state an RLD START leaves (R40). -/
def runLengthStarted (s : State) : State :=
  { s with
    inPos := 0, writePos := 0, mode := .absolute,
    reason := .none, phase := .busy, decoder := .runLength, outMem := [], outSize := s.targetSize }

/-- The state a START of an unsupported code leaves (R182). -/
def unsupportedEnded (s : State) : State :=
  { s with
    inPos := 0, writePos := 0, mode := .absolute, decoder := .none,
    reason := .unsupportedFormat, phase := .done }

theorem one_le_inLen_iff (s : State) : 1 ≤ s.inLen.toNat ↔ s.inLen ≠ 0 := by
  rw [Nat.one_le_iff_ne_zero, ne_eq, ne_eq, ← BitVec.toNat_inj]
  rfl

theorem beginJob_copyCode (s : State) : beginJob .copyCode s = .next (copyCodeStarted s) := by
  unfold copyCodeStarted
  by_cases h : s.inLen ≠ 0 ∧ s.inByte 0 = 0x00#8
  · obtain ⟨hlen, hbyte⟩ := h
    rw [if_pos ⟨hlen, hbyte⟩, if_pos ⟨hlen, hbyte⟩]
    exact resolveMode_rel ((one_le_inLen_iff s).2 hlen) hbyte
  · rw [if_neg h, if_neg h]
    exact resolveMode_none fun hp => h ⟨(one_le_inLen_iff s).1 hp.1, hp.2⟩

theorem beginJob_runLength (s : State) : beginJob .runLength s = .next (runLengthStarted s) := rfl

theorem beginJob_unsupported (s : State) : beginJob .unsupported s = .next (unsupportedEnded s) := rfl

/-- A write of 1 to CTRL.START while not BUSY is a START. -/
theorem act_start {v : Word} {s : State} (hs : s.phase ≠ .busy) (hv : v.getLsbD 0 = true) :
    act (.writeReg .ctrl v) s = start s := by
  change hostWriteReg .ctrl v s = _
  rw [hostWriteReg_quiet_ctrl hs, hv]
  rfl

/-- Settles O38: the capacity check, then `beginJob` of the code's kind. -/
theorem startBeginsJob : Obligations.StartBeginsJob := by
  unfold Obligations.StartBeginsJob
  intro v s hs hv
  rw [act_start hs hv, start]
  split
  · rfl
  · split
    next hk => rw [hk]; exact beginJob_unsupported s
    next hk => rw [hk]; exact beginJob_copyCode s
    next hk => rw [hk]; exact beginJob_runLength s

/-! ### What a decoding reads -/

/-- REL is read at index 0 of a CCD job only, from the byte 0x00 (R73, R79). -/
theorem decode_rel {d : Decoder} {index : Nat} {bytes rest : List Byte}
    (h : decode d index bytes = .ok (.rel, rest)) :
    d = .copyCode ∧ index = 0 ∧ bytes = 0x00#8 :: rest := by
  have hd : d = .copyCode := (decode_size h).2.symm
  subst hd
  simp only [decode] at h
  unfold decodeCopyCode at h
  split at h
  · cases h
  next op more =>
    split at h
    next hrel =>
      obtain ⟨hindex, hop⟩ := hrel
      cases h
      exact ⟨rfl, hindex, by rw [hop]⟩
    next =>
      repeat' split at h
      all_goals cases h

end Sys2Proof.Machine
end

section
/-!
PROOFS. Encodings are read back by the decoder (30_encoding.md R72 to R86), and a step of a running job runs the
command read.
-/

namespace Sys2Proof

/-! ### The row of the opcode map that a first byte selects (R72, R80) -/

theorem ne_rel_of_toNat_pos {index : Nat} {op : Byte} (h : 0 < op.toNat) : ¬(index = 0 ∧ op = 0x00#8) := by
  rintro ⟨-, rfl⟩
  exact absurd h (by decide)

theorem decode_sbr_row {index : Nat} {op b : Byte} {rest : List Byte} (hrel : ¬(index = 0 ∧ op = 0x00#8))
    (hop : op.toNat < 0x80) :
    decode .copyCode index (op :: b :: rest) = .ok (.sbr (sbrCount op) (sbrDist op b), rest) := by
  simp only [decode, decodeCopyCode, if_neg hrel, if_pos ((bit7_clear_iff op).2 hop)]

theorem decode_endMark_row {index : Nat} {rest : List Byte} :
    decode .copyCode index (0x80#8 :: rest) = .ok (.endMark, rest) := by
  have hrel : ¬(index = 0 ∧ 0x80#8 = 0x00#8) := ne_rel_of_toNat_pos (by decide)
  simp only [decode, decodeCopyCode, if_neg hrel]
  rfl

theorem decode_lit_row {index : Nat} {op : Byte} {rest : List Byte} (hlo : 0x80 < op.toNat) (hhi : op.toNat < 0xC0) :
    decode .copyCode index (op :: rest) = .ok (.lit (op.toNat - 0x80), rest) := by
  have h7 : ¬op.getLsbD 7 = false := by rw [bit7_clear_iff]; omega
  have h6 : op.getLsbD 6 = false := by rw [bit6_clear_iff]; omega
  have hsix : lowSix op = op.toNat - 0x80 := by rw [lowSix_eq]; omega
  have hne : ¬op.toNat - 0x80 = 0 := by omega
  simp only [decode, decodeCopyCode, if_neg (ne_rel_of_toNat_pos (by omega : 0 < op.toNat)), if_neg h7, if_pos h6,
    hsix, if_neg hne]

/-- The rows from 0xC0 on are told apart by op[5:0] alone. -/
theorem high_row_fields {index : Nat} {op : Byte} (hop : 0xC0 ≤ op.toNat) :
    ¬(index = 0 ∧ op = 0x00#8) ∧ ¬op.getLsbD 7 = false ∧ ¬op.getLsbD 6 = false ∧ lowSix op = op.toNat - 0xC0 := by
  have hbyte := op.isLt
  refine ⟨ne_rel_of_toNat_pos (by omega), ?_, ?_, ?_⟩
  · rw [bit7_clear_iff]; omega
  · rw [bit6_clear_iff]; omega
  · rw [lowSix_eq]; omega

theorem decode_mcp_row {index : Nat} {op lo hi : Byte} {rest : List Byte} (hop : 0xC0 ≤ op.toNat)
    (hhi : op.toNat < 0xFE) :
    decode .copyCode index (op :: lo :: hi :: rest) = .ok (.mcp (op.toNat - 0xC0 + 3) (wordLE lo hi), rest) := by
  obtain ⟨hrel, h7, h6, hsix⟩ := high_row_fields (index := index) hop
  have hlt : op.toNat - 0xC0 < 0x3E := by omega
  simp only [decode, decodeCopyCode, if_neg hrel, if_neg h7, if_neg h6, hsix, if_pos hlt]

theorem decode_fill_row {index : Nat} {lo hi v : Byte} {rest : List Byte} :
    decode .copyCode index (0xFE#8 :: lo :: hi :: v :: rest) = .ok (.fill (wordLE lo hi) v, rest) := by
  have hrel : ¬(index = 0 ∧ 0xFE#8 = 0x00#8) := ne_rel_of_toNat_pos (by decide)
  simp only [decode, decodeCopyCode, if_neg hrel]
  rfl

theorem decode_vcp_row {index : Nat} {nlo nhi dlo dhi : Byte} {rest : List Byte} :
    decode .copyCode index (0xFF#8 :: nlo :: nhi :: dlo :: dhi :: rest) =
      .ok (.vcp (wordLE nlo nhi) (wordLE dlo dhi), rest) := by
  have hrel : ¬(index = 0 ∧ 0xFF#8 = 0x00#8) := ne_rel_of_toNat_pos (by decide)
  simp only [decode, decodeCopyCode, if_neg hrel]
  rfl

theorem decode_rlit_row {index : Nat} {k : Byte} {rest : List Byte} (hlo : 0 < k.toNat) (hhi : k.toNat < 0x80) :
    decode .runLength index (k :: rest) = .ok (.rlit k.toNat, rest) := by
  have hk : k.toInt = k.toNat := by rw [toInt_eq_sext8, if_pos hhi]
  have hpos : (0 : Int) < k.toNat := by omega
  simp only [decode, decodeRunLength, hk, if_pos hpos, Int.toNat_natCast]

theorem decode_rrep_row {index : Nat} {k v : Byte} {rest : List Byte} (hk : 0x80 ≤ k.toNat) :
    decode .runLength index (k :: v :: rest) = .ok (.rrep (256 - k.toNat) v, rest) := by
  have hbyte := k.isLt
  have hint : k.toInt = k.toNat - 256 := by rw [toInt_eq_sext8, if_neg (by omega)]
  simp only [decode, decodeRunLength, if_neg (show ¬0 < k.toInt by omega), if_pos (show k.toInt < 0 by omega),
    rrepCount_eq hk]

theorem decode_rxt_row {index : Nat} {hi lo v : Byte} {rest : List Byte} :
    decode .runLength index (0x00#8 :: hi :: lo :: v :: rest) = .ok (.rxt (wordBE hi lo) v, rest) := rfl

/-! ### An encoding is read back -/

theorem wordLE_bytes (n : Half) : wordLE (toByte (n.toNat % 256)) (toByte (n.toNat / 256)) = n := by
  apply BitVec.eq_of_toNat_eq
  have hn := n.isLt
  rw [wordLE_toNat, toByte_toNat, toByte_toNat]
  omega

theorem wordBE_bytes (n : Half) : wordBE (toByte (n.toNat / 256)) (toByte (n.toNat % 256)) = n := by
  apply BitVec.eq_of_toNat_eq
  have hn := n.isLt
  rw [wordBE_toNat, toByte_toNat, toByte_toNat]
  omega

/-- The first byte of SBR's encoding, as a number (R86). -/
theorem sbr_opcode_toNat {count : Nat} {dist : BitVec 12} (hlo : 3 ≤ count) (hhi : count ≤ 10) :
    (toByte ((count - 3) * 16 + dist.toNat / 256)).toNat = (count - 3) * 16 + dist.toNat / 256 := by
  have hdist := dist.isLt
  rw [toByte_toNat]
  omega

/-- SBR is read back wherever its opcode is not read as REL. -/
theorem decode_encode_sbr {index count : Nat} {dist : BitVec 12} {rest : List Byte} (hlo : 3 ≤ count)
    (hhi : count ≤ 10) (hplace : (Instr.sbr count dist).placeable index = true) :
    decode .copyCode index (encode (.sbr count dist) ++ rest) = .ok (.sbr count dist, rest) := by
  have hdist := dist.isLt
  have hop := sbr_opcode_toNat (dist := dist) hlo hhi
  have hrel : ¬(index = 0 ∧ toByte ((count - 3) * 16 + dist.toNat / 256) = 0x00#8) := by
    rw [not_and_or]
    simpa [Instr.placeable, Instr.decoder, encode] using hplace
  have hcount : sbrCount (toByte ((count - 3) * 16 + dist.toNat / 256)) = count := by
    rw [sbrCount_eq, hop]; omega
  have hdistance : sbrDist (toByte ((count - 3) * 16 + dist.toNat / 256)) (toByte (dist.toNat % 256)) = dist := by
    apply BitVec.eq_of_toNat_eq
    rw [sbrDist_toNat, hop, toByte_toNat]
    omega
  have hrow := decode_sbr_row (b := toByte (dist.toNat % 256)) (rest := rest) hrel (by omega)
  rw [hcount, hdistance] at hrow
  exact hrow

/-- Decode of encode: a well-formed command is read back where it can stand (R72 to R86). -/
theorem decode_encode {i : Instr} {index : Nat} (rest : List Byte) (hwf : i.wellFormed = true)
    (hplace : i.placeable index = true) : decode i.decoder index (encode i ++ rest) = .ok (i, rest) := by
  cases i with
  | rel =>
    have hindex : index = 0 := by simpa [Instr.placeable] using hplace
    subst hindex
    rfl
  | sbr count dist =>
    obtain ⟨hlo, hhi⟩ : 3 ≤ count ∧ count ≤ 10 := by simpa [Instr.wellFormed] using hwf
    exact decode_encode_sbr hlo hhi hplace
  | lit count =>
    obtain ⟨hlo, hhi⟩ : 1 ≤ count ∧ count ≤ 63 := by simpa [Instr.wellFormed] using hwf
    have hop : (toByte (0x80 + count)).toNat = 0x80 + count := by rw [toByte_toNat]; omega
    have hrow := decode_lit_row (index := index) (op := toByte (0x80 + count)) (rest := rest) (by omega) (by omega)
    rw [hop, Nat.add_sub_cancel_left] at hrow
    exact hrow
  | endMark => exact decode_endMark_row
  | mcp count dat =>
    obtain ⟨hlo, hhi⟩ : 3 ≤ count ∧ count ≤ 64 := by simpa [Instr.wellFormed] using hwf
    have hop : (toByte (0xC0 + (count - 3))).toNat = 0xC0 + (count - 3) := by rw [toByte_toNat]; omega
    have hrow := decode_mcp_row (index := index) (op := toByte (0xC0 + (count - 3)))
      (lo := toByte (dat.toNat % 256)) (hi := toByte (dat.toNat / 256)) (rest := rest) (by omega) (by omega)
    rw [hop, Nat.add_sub_cancel_left, Nat.sub_add_cancel hlo, wordLE_bytes] at hrow
    exact hrow
  | fill n v =>
    have hrow := decode_fill_row (index := index)
      (lo := toByte (n.toNat % 256)) (hi := toByte (n.toNat / 256)) (v := v) (rest := rest)
    rw [wordLE_bytes] at hrow
    exact hrow
  | vcp n dat =>
    have hrow := decode_vcp_row (index := index) (nlo := toByte (n.toNat % 256)) (nhi := toByte (n.toNat / 256))
      (dlo := toByte (dat.toNat % 256)) (dhi := toByte (dat.toNat / 256)) (rest := rest)
    rw [wordLE_bytes, wordLE_bytes] at hrow
    exact hrow
  | rlit count =>
    obtain ⟨hlo, hhi⟩ : 1 ≤ count ∧ count ≤ 127 := by simpa [Instr.wellFormed] using hwf
    have hop : (toByte count).toNat = count := by rw [toByte_toNat]; omega
    have hrow := decode_rlit_row (index := index) (k := toByte count) (rest := rest) (by omega) (by omega)
    rw [hop] at hrow
    exact hrow
  | rrep n v =>
    obtain ⟨hlo, hhi⟩ : 1 ≤ n ∧ n ≤ 128 := by simpa [Instr.wellFormed] using hwf
    have hop : (toByte ((256 - n) % 256)).toNat = 256 - n := by rw [toByte_toNat]; omega
    have hrow := decode_rrep_row (index := index) (k := toByte ((256 - n) % 256)) (v := v) (rest := rest) (by omega)
    rw [hop, show 256 - (256 - n) = n by omega] at hrow
    exact hrow
  | rxt n v =>
    have hrow := decode_rxt_row (index := index)
      (hi := toByte (n.toNat / 256)) (lo := toByte (n.toNat % 256)) (v := v) (rest := rest)
    rw [wordBE_bytes] at hrow
    exact hrow

/-- The architect's statement per command, for every command. -/
theorem encodeSize (i : Instr) : Laws.EncodeSize.Statement i := by
  cases i with
  | rel => exact Laws.EncodeSize.rel
  | sbr count dist => exact Laws.EncodeSize.sbr count dist
  | lit count => exact Laws.EncodeSize.lit count
  | endMark => exact Laws.EncodeSize.endMark
  | mcp count dat => exact Laws.EncodeSize.mcp count dat
  | fill n v => exact Laws.EncodeSize.fill n v
  | vcp n dat => exact Laws.EncodeSize.vcp n dat
  | rlit count => exact Laws.EncodeSize.rlit count
  | rrep n v => exact Laws.EncodeSize.rrep n v
  | rxt n v => exact Laws.EncodeSize.rxt n v

end Sys2Proof

namespace Sys2Proof.Machine

/-! ### A step runs a command -/

/-- Past the two checks a running job's step runs the command at IN_POS. -/
theorem step_past_checks {s : State} (hs : s.Running) (hw : s.writePos ≠ s.targetSize) (hp : s.inPos ≠ s.inLen) :
    step s = runCommand s := by
  rw [step_running hs, busyStep, if_neg hw, if_neg hp]

theorem runCommand_decoded {s : State} {i : Instr} {rest : List Byte}
    (h : decode s.decoder s.inPos.toNat (operandWindow s) = .ok (i, rest)) : runCommand s = exec i s := by
  simp only [runCommand, h]

/-- Settles O32: `runCommand` dispatches on the decoding of the window. -/
theorem stepRunsDecodedInstruction : Obligations.StepRunsDecodedInstruction := by
  unfold Obligations.StepRunsDecodedInstruction
  intro s i rest hs hw hp hdec
  rw [step_past_checks hs hw hp, runCommand_decoded hdec]

/-- The window begins with the encoding whose bytes stand at IN_POS, before IN_LEN. -/
theorem operandWindow_of_encoding {s : State} {i : Instr} (hlen : s.inPos.toNat + i.size ≤ s.inLen.toNat)
    (hbytes : ∀ k, k < i.size → (encode i)[k]? = some (s.inByte (s.inPos.toNat + k))) :
    ∃ rest, operandWindow s = encode i ++ rest := by
  obtain ⟨henc, -, hlong, -⟩ := encodeSize i
  refine ⟨(operandWindow s).drop i.size, ?_⟩
  have hhead : (operandWindow s).take i.size = encode i := by
    apply List.ext_getElem?
    intro k
    rw [List.getElem?_take]
    split
    · next hk => rw [hbytes k hk]; exact bytesFrom_get s _ _ k (by omega) (by omega)
    · next hk => rw [List.getElem?_eq_none (by omega)]
  rw [← hhead, List.take_append_drop]

/-- Settles O33: the window decodes to the command by `decode_encode`. -/
theorem stepRunsEncodedBytes : Obligations.StepRunsEncodedBytes := by
  unfold Obligations.StepRunsEncodedBytes
  intro s i hs hw hwf hdec hplace hlen hbytes
  obtain ⟨-, hone, -, -⟩ := encodeSize i
  obtain ⟨rest, hwindow⟩ := operandWindow_of_encoding hlen hbytes
  have hp : s.inPos ≠ s.inLen := by
    intro he
    rw [he] at hlen
    omega
  rw [step_past_checks hs hw hp]
  apply runCommand_decoded (rest := rest)
  rw [hwindow, ← hdec]
  exact decode_encode rest hwf hplace

end Sys2Proof.Machine
end

section
/-!
PROOFS. What a command and a step of a running job do (40_copy_code.md R109 to R115, 41_run_length.md R152 to R155),
said once: the result of each command, and the bounds and the stop reasons that all of them share.
-/

namespace Sys2Proof.Machine

/-! ### The result of each command -/

theorem copyBack_consumed {k n : Nat} {src : Int} {s : State} (h : s.Ready k) :
    ∃ t, (copyBack src n (consume k s)).outcome = .next t ∧ CopiedBack s t k src n := by
  obtain ⟨t, ht, hcopied⟩ := (copyBack_spec src n (s := consume k s) h.2).outcome
  exact ⟨t, ht, hcopied.consumed h.1⟩

theorem copyLiteral_consumed {k n : Nat} {s : State} (h : s.Ready k) :
    ∃ t, (copyLiteral n (consume k s)).outcome = .next t ∧ CopiedLiteral s t k n := by
  obtain ⟨t, ht, hcopied⟩ := (copyLiteral_spec n (s := consume k s) h.2).outcome
  exact ⟨t, ht, hcopied.consumed h.1⟩

theorem fillBytes_consumed {k n : Nat} {v : Byte} {s : State} (h : s.Ready k) :
    ∃ t, (fillBytes n v (consume k s)).outcome = .next t ∧ Filled s t k n v := by
  obtain ⟨t, ht, hfilled⟩ := (fillBytes_spec n v (s := consume k s) h.2).outcome
  exact ⟨t, ht, hfilled.consumed h.1⟩

theorem exec_sbr {count : Nat} {dist : BitVec 12} {s : State} (h : s.Ready 2) :
    ∃ t, exec (.sbr count dist) s = .next t ∧ CopiedBack s t 2 (distanceSource dist s) count := copyBack_consumed h

theorem exec_lit {count : Nat} {s : State} (h : s.Ready 1) :
    ∃ t, exec (.lit count) s = .next t ∧ CopiedLiteral s t 1 count := copyLiteral_consumed h

theorem exec_endMark {s : State} (h : s.inPos.toNat + 1 ≤ s.inLen.toNat) :
    ∃ t, exec .endMark s = .next t ∧ Wrote s t 1 0 (fun _ => 0) (some .endMarker) :=
  ⟨_, rfl, (Wrote.stop (consume 1 s) .endMarker _).consumed h⟩

theorem exec_mcp {count : Nat} {dat : Half} {s : State} (h : s.Ready 3) :
    ∃ t, exec (.mcp count dat) s = .next t ∧ CopiedBack s t 3 (resolve dat s) count := copyBack_consumed h

theorem exec_fill {n : Half} {v : Byte} {s : State} (h : s.Ready 4) :
    ∃ t, exec (.fill n v) s = .next t ∧ Filled s t 4 n.toNat v := fillBytes_consumed h

theorem exec_vcp {n dat : Half} {s : State} (h : s.Ready 5) :
    ∃ t, exec (.vcp n dat) s = .next t ∧ CopiedBack s t 5 (resolve dat s) n.toNat := copyBack_consumed h

theorem exec_rlit {count : Nat} {s : State} (h : s.Ready 1) :
    ∃ t, exec (.rlit count) s = .next t ∧ CopiedLiteral s t 1 count := copyLiteral_consumed h

theorem exec_rrep {n : Nat} {v : Byte} {s : State} (h : s.Ready 2) :
    ∃ t, exec (.rrep n v) s = .next t ∧ Filled s t 2 n v := fillBytes_consumed h

theorem exec_rxt {n : Half} {v : Byte} {s : State} (h : s.Ready 4) :
    ∃ t, exec (.rxt n v) s = .next t ∧ Filled s t 4 n.toNat v := fillBytes_consumed h

/-! ### What every command and every step share -/

/-- The reasons with which a running job of a decoder can stop (R116, R150, R181): END_MARKER and BAD_REFERENCE are the
CCD's alone. -/
def MayStop (d : Decoder) : Reason → Prop
  | .outputExhausted | .inputEnd | .truncatedInput => True
  | .endMarker | .badReference => d = .copyCode
  | .none | .unsupportedFormat => False

theorem MayStop.ne {d : Decoder} {r : Reason} (h : MayStop d r) : r ≠ .none ∧ r ≠ .unsupportedFormat :=
  ⟨fun e => (e ▸ h : MayStop d .none), fun e => (e ▸ h : MayStop d .unsupportedFormat)⟩

theorem MayStop.runLength {r : Reason} (h : MayStop .runLength r) : r ≠ .endMarker ∧ r ≠ .badReference := by
  constructor
  · rintro rfl
    cases (h : Decoder.runLength = .copyCode)
  · rintro rfl
    cases (h : Decoder.runLength = .copyCode)

/-- `t` is `s` after at least `least` bytes of IN are consumed, none past IN_LEN, and bytes are written, none past
TARGET_SIZE, with a stop, if any, that the decoder can make. -/
def Advances (s t : State) (least : Nat) : Prop :=
  ∃ used m byte ended, Wrote s t used m byte ended ∧ least ≤ used ∧ used ≤ s.ahead 0 ∧ m ≤ s.room ∧
    ∀ r ∈ ended, MayStop s.decoder r

theorem Filled.advances {s t : State} {k n : Nat} {v : Byte} (hk : k ≤ s.ahead 0) (h : Filled s t k n v) :
    Advances s t k := by
  refine ⟨_, _, _, _, h, le_rfl, hk, Nat.min_le_right _ _, fun r hr => ?_⟩
  split at hr
  · cases hr
  · cases hr
    trivial

theorem CopiedLiteral.advances {s t : State} {k n : Nat} (hk : k ≤ s.ahead 0) (h : CopiedLiteral s t k n) :
    Advances s t k := by
  have hahead : s.ahead k + k ≤ s.ahead 0 := by simp only [State.ahead] at *; omega
  refine ⟨_, _, _, _, h, Nat.le_add_right _ _, by omega, by omega, fun r hr => ?_⟩
  split at hr
  · cases hr
  · split at hr <;> cases hr <;> trivial

theorem CopiedBack.advances {s t : State} {k n : Nat} {src : Int} (hk : k ≤ s.ahead 0)
    (hd : s.decoder = .copyCode) (h : CopiedBack s t k src n) : Advances s t k := by
  unfold CopiedBack at h
  split at h
  · exact ⟨_, _, _, _, h, le_rfl, hk, Nat.zero_le _, fun r hr => by cases hr⟩
  split at h
  · refine ⟨_, _, _, _, h, le_rfl, hk, Nat.zero_le _, fun r hr => ?_⟩
    cases hr
    trivial
  split at h
  · refine ⟨_, _, _, _, h, le_rfl, hk, Nat.zero_le _, fun r hr => ?_⟩
    cases hr
    exact hd
  · refine ⟨_, _, _, _, h, le_rfl, hk, Nat.min_le_right _ _, fun r hr => ?_⟩
    split at hr
    · cases hr
    · cases hr
      trivial

/-- Every command but REL, on a ready state of its decoder. -/
theorem exec_advances {i : Instr} {s : State} (hi : i ≠ .rel) (hd : i.decoder = s.decoder) (h : s.Ready i.size) :
    ∃ t, exec i s = .next t ∧ Advances s t i.size := by
  have hk : i.size ≤ s.ahead 0 := by
    have := h.1
    simp only [State.ahead]
    omega
  cases i with
  | rel => exact absurd rfl hi
  | sbr count dist => exact (exec_sbr h).imp fun t ht => ⟨ht.1, ht.2.advances hk hd.symm⟩
  | lit count => exact (exec_lit h).imp fun t ht => ⟨ht.1, ht.2.advances hk⟩
  | endMark =>
    refine (exec_endMark h.1).imp fun t ht => ⟨ht.1, _, _, _, _, ht.2, le_rfl, hk, Nat.zero_le _, fun r hr => ?_⟩
    cases hr
    exact hd.symm
  | mcp count dat => exact (exec_mcp h).imp fun t ht => ⟨ht.1, ht.2.advances hk hd.symm⟩
  | fill n v => exact (exec_fill h).imp fun t ht => ⟨ht.1, ht.2.advances hk⟩
  | vcp n dat => exact (exec_vcp h).imp fun t ht => ⟨ht.1, ht.2.advances hk hd.symm⟩
  | rlit count => exact (exec_rlit h).imp fun t ht => ⟨ht.1, ht.2.advances hk⟩
  | rrep n v => exact (exec_rrep h).imp fun t ht => ⟨ht.1, ht.2.advances hk⟩
  | rxt n v => exact (exec_rxt h).imp fun t ht => ⟨ht.1, ht.2.advances hk⟩

theorem raiseStop_advances {r : Reason} {s : State} (hr : MayStop s.decoder r) : Advances s (raiseStop r s) 0 := by
  refine ⟨_, _, fun _ => 0, _, Wrote.stop s r _, le_rfl, Nat.zero_le _, Nat.zero_le _, fun r' hr' => ?_⟩
  cases hr'
  exact hr

/-- A command cut short consumes what is there of its first five bytes. -/
theorem operandsCut_advances {s : State} (h : s.inPos.toNat < s.inLen.toNat) : Advances s (operandsCut s) 1 := by
  have hlen := operandWindow_length s
  simp only [longestOperands] at hlen
  have hwrote := (Wrote.stop (consume (operandWindow s).length s) .truncatedInput fun _ => 0).consumed
    (s := s) (by omega)
  refine ⟨_, _, _, _, hwrote, by omega, by simp only [State.ahead]; omega, Nat.zero_le _, fun r hr => ?_⟩
  cases hr
  trivial

/-! ### A step of a running job -/

/-- The first byte of a window is the byte of IN at its index, before IN_LEN, and the window goes on behind it. -/
theorem bytesFrom_cons {s : State} {k a : Nat} {b : Byte} {rest : List Byte} (h : bytesFrom s (k + 1) a = b :: rest) :
    a < s.inLen.toNat ∧ s.inByte a = b ∧ bytesFrom s k (a + 1) = rest := by
  rw [bytesFrom] at h
  split at h
  next ha =>
    obtain ⟨hbyte, hrest⟩ := List.cons.inj h
    exact ⟨ha, hbyte, hrest⟩
  next => cases h

/-- A step that reads REL stands before an unresolved REL. -/
theorem unresolvedRel_of_window {s : State} {rest : List Byte} (hindex : s.inPos.toNat = 0)
    (hw : operandWindow s = 0x00#8 :: rest) : s.inPos = 0 ∧ s.inLen ≠ 0 ∧ s.inByte 0 = 0x00#8 := by
  obtain ⟨hlt, hbyte, -⟩ := bytesFrom_cons hw
  rw [hindex] at hlt hbyte
  exact ⟨BitVec.eq_of_toNat_eq hindex, (one_le_inLen_iff s).1 hlt, hbyte⟩

/-- A job that meets the invariant never decodes REL: START has consumed it (R108). -/
theorem State.Inv.not_rel {s : State} (h : s.Inv) (hb : s.phase = .busy) {rest : List Byte} :
    decode s.decoder s.inPos.toNat (operandWindow s) ≠ .ok (.rel, rest) := by
  intro hdec
  obtain ⟨hd, hindex, hw⟩ := decode_rel hdec
  obtain ⟨hpos, hlen, hzero⟩ := unresolvedRel_of_window hindex hw
  rcases h.prefixResolved hb hd hpos with hl | hbyte
  · exact hlen hl
  · exact hbyte hzero

theorem State.Inv.outReady {s : State} (h : s.Inv) (hb : s.phase = .busy) : s.OutReady := by
  obtain ⟨-, hd, hsize, -⟩ := h.busy hb
  exact ⟨h.outCanonical, hsize ▸ h.writeInside hd⟩

/-- A step of a running job never faults: past the two checks it consumes at least a byte; otherwise it is one of the
two stops at its top. -/
theorem busyStep_advances {s : State} (h : s.Inv) (hb : s.phase = .busy) :
    ∃ t, busyStep s = .next t ∧
      (Advances s t 1 ∨
        Advances s t 0 ∧ t.phase = .done ∧ (s.writePos = s.targetSize ∨ s.inPos = s.inLen)) := by
  obtain ⟨-, hd, -, hle⟩ := h.busy hb
  have hlt : s.inPos ≠ s.inLen → s.inPos.toNat < s.inLen.toNat := fun hne =>
    lt_of_le_of_ne hle fun he => hne (BitVec.eq_of_toNat_eq he)
  rcases busyStep_cases s with ⟨hfull, e⟩ | ⟨-, hend, e⟩ | ⟨-, hp, i, rest, hdec, e⟩ | ⟨-, hp, -, e⟩ | ⟨hnone, -⟩
  · exact ⟨_, e, .inr ⟨raiseStop_advances trivial, rfl, .inl hfull⟩⟩
  · exact ⟨_, e, .inr ⟨raiseStop_advances trivial, rfl, .inr hend⟩⟩
  · have hi : i ≠ .rel := by
      rintro rfl
      exact h.not_rel hb hdec
    obtain ⟨hsize, hdecoder⟩ := decoded_size_le hdec hle
    obtain ⟨t, ht, used, m, byte, ended, hwrote, hused, hrest⟩ := exec_advances hi hdecoder ⟨hsize, h.outReady hb⟩
    obtain ⟨-, hone, -, -⟩ := encodeSize i
    exact ⟨t, e.trans ht, .inl ⟨used, m, byte, ended, hwrote, hone.trans hused, hrest⟩⟩
  · exact ⟨_, e, .inl (operandsCut_advances (hlt hp))⟩
  · exact absurd hnone hd

/-- The same of a step that is known to answer `t`. -/
theorem busyStep_next {s t : State} (h : s.Inv) (hb : s.phase = .busy) (ht : busyStep s = .next t) :
    Advances s t 1 ∨ Advances s t 0 ∧ t.phase = .done ∧ (s.writePos = s.targetSize ∨ s.inPos = s.inLen) := by
  obtain ⟨t', ht', hcase⟩ := busyStep_advances h hb
  rw [ht'] at ht
  cases ht
  exact hcase

/-- What the elementary effects and a change of MODE keep, a step of the engine keeps. -/
theorem Kept.engineStep {P : State → Prop} (hP : Kept P) (hmode : ∀ m s, P s → P (setMode m s)) {s t : State}
    (hs : P s) (h : engineStep s = .next t) : P t := by
  unfold Machine.engineStep at h
  split at h
  · cases h; exact hs
  · rcases busyStep_cases s with ⟨-, e⟩ | ⟨-, -, e⟩ | ⟨-, -, i, rest, -, e⟩ | ⟨-, -, -, e⟩ | ⟨-, e⟩ <;> rw [e] at h
    · cases h; exact hP.stop _ _ hs
    · cases h; exact hP.stop _ _ hs
    · by_cases hi : i = .rel
      · subst hi; cases h; exact hmode _ _ (hP.consume _ _ hs)
      · exact hP.exec hi hs h
    · cases h; exact hP.stop _ _ (hP.consume _ _ hs)
    · cases h
  · cases h; exact hs

end Sys2Proof.Machine
end

section
/-!
PROOFS. The invariant `State.Inv` is kept by every step, and what it says of a job's result (10_state.md R26 to R29,
R35, R38, 60_exceptions.md R181, R182).
-/

namespace Sys2Proof.Machine

/-! ### Steps of the engine -/

/-- OUT is in canonical form and lists nothing from WRITE_POS on (R38 item 3). -/
def OutTidy (s : State) : Prop :=
  Memory.wf .outBuffer s.outMem ∧ ∀ c ∈ s.outMem, c.1 < s.writePos.toNat

theorem outTidy_kept : Kept OutTidy where
  consume _ _ h := h
  stop _ _ h := h
  put v s hroom h := by
    obtain ⟨hwf, hbelow⟩ := h
    refine ⟨Memory.wf_write _ _ hwf, fun c hc => ?_⟩
    rw [putState_writePos_toNat hroom]
    rcases Memory.mem_write hc with rfl | hold
    · exact Nat.lt_succ_self _
    · exact (hbelow c hold).trans (Nat.lt_succ_self _)

theorem State.Inv.outTidy {s : State} (h : s.Inv) (hb : s.phase = .busy) : OutTidy s :=
  ⟨h.outCanonical, h.outZeroAhead (h.busy hb).2.1⟩

/-- The two ways a command ends: PHASE and REASON as they were, or DONE with a reason (R189). -/
theorem Ended.cases {s t : State} {ended : Option Reason} (h : Ended s t ended) :
    (ended = none ∧ t.phase = s.phase ∧ t.reason = s.reason) ∨
      ∃ r, ended = some r ∧ t.phase = .done ∧ t.reason = r := by
  cases ended with
  | none => exact .inl ⟨rfl, h⟩
  | some r => exact .inr ⟨r, rfl, h⟩

/-- How a step leaves PHASE and REASON: BUSY without a reason, or DONE with one that its decoder can give. -/
theorem Advances.ended {s t : State} {least : Nat} (h : Advances s t least) (hb : s.phase = .busy)
    (hr : s.reason = .none) :
    (t.phase = .busy ∧ t.reason = .none) ∨ (t.phase = .done ∧ MayStop s.decoder t.reason) := by
  obtain ⟨used, m, byte, ended, hwrote, -, -, -, hstop⟩ := h
  rcases hwrote.ended.cases with ⟨-, hphase, hreason⟩ | ⟨r, hended, hphase, hreason⟩
  · exact .inl ⟨hphase.trans hb, hreason.trans hr⟩
  · exact .inr ⟨hphase, hreason ▸ hstop r hended⟩

/-- What `Advances` gives keeps the invariant, where OUT is tidy and a job that goes on has consumed a byte. -/
theorem State.Inv.advances {s t : State} {least : Nat} (h : s.Inv) (hb : s.phase = .busy) (hadv : Advances s t least)
    (hpos : t.phase = .busy → t.inPos ≠ 0) (htidy : OutTidy t) : t.Inv := by
  obtain ⟨hreason, hd, hsize, hle⟩ := h.busy hb
  have hwrite := h.writeInside hd
  have hended := hadv.ended hb hreason
  obtain ⟨used, m, byte, ended, hwrote, -, hused, hm, -⟩ := hadv
  have hdec : t.decoder ≠ .none := hwrote.decoder ▸ hd
  simp only [State.ahead] at hused
  simp only [State.room] at hm
  exact {
    inCanonical := hwrote.inMem ▸ h.inCanonical
    outCanonical := htidy.1
    outZeroAhead := fun _ => htidy.2
    writeInside := fun _ => by rw [hwrote.writePos, hwrote.outSize]; rw [hsize] at hwrite ⊢; omega
    idle := fun hp => by rcases hended with ⟨hp', -⟩ | ⟨hp', -⟩ <;> simp [hp] at hp'
    busy := fun hp => by
      rcases hended with ⟨-, hr⟩ | ⟨hp', -⟩
      · exact ⟨hr, hdec, by rw [hwrote.outSize, hwrote.targetSize, hsize], by rw [hwrote.inPos, hwrote.inLen]; omega⟩
      · simp [hp] at hp'
    prefixResolved := fun hp _ h0 => absurd h0 (hpos hp)
    done := fun hp => by
      rcases hended with ⟨hp', -⟩ | ⟨-, hr⟩
      · simp [hp] at hp'
      · exact ⟨(MayStop.ne hr).1, fun he => absurd he (MayStop.ne hr).2, fun hn => absurd hn hdec⟩
    noDecoder := fun hn => absurd hn hdec
    runLength := fun hl => by
      have hls : s.decoder = .runLength := hwrote.decoder ▸ hl
      refine ⟨hwrote.mode.trans (h.runLength hls).1, ?_⟩
      rcases hended with ⟨-, hr⟩ | ⟨-, hr⟩
      · simp [hr]
      · exact MayStop.runLength (hls ▸ hr) }

theorem State.Inv.busyStep {s t : State} (h : s.Inv) (hb : s.phase = .busy) (htidy : OutTidy t)
    (ht : busyStep s = .next t) : t.Inv := by
  rcases busyStep_next h hb ht with hadv | ⟨hadv, hdone, -⟩
  · refine h.advances hb hadv (fun _ h0 => ?_) htidy
    obtain ⟨used, _, _, _, hwrote, hused, -⟩ := hadv
    have hmoved := hwrote.inPos
    rw [h0] at hmoved
    change 0 = _ at hmoved
    omega
  · exact h.advances hb hadv (fun hp => by simp [hdone] at hp) htidy

/-- IDLE and DONE are quiet (R195). -/
theorem engineStep_quiet {s : State} (hb : s.phase ≠ .busy) : engineStep s = .next s := by
  cases hp : s.phase with
  | idle => rw [engineStep, hp]
  | busy => exact absurd hp hb
  | done => rw [engineStep, hp]

theorem engineStep_busy {s : State} (hb : s.phase = .busy) : engineStep s = busyStep s := by
  rw [engineStep, hb]

theorem State.Inv.engineStep {s t : State} (h : s.Inv) (ht : engineStep s = .next t) : t.Inv := by
  by_cases hb : s.phase = .busy
  · have htidy : OutTidy t := outTidy_kept.engineStep (fun _ _ hs => hs) (h.outTidy hb) ht
    refine h.busyStep hb htidy ?_
    rwa [engineStep_busy hb] at ht
  · rw [engineStep_quiet hb] at ht
    cases ht
    exact h

/-! ### Actions of the host -/

/-- The invariant does not look at what the host is given, nor at the free draws. -/
theorem State.Inv.withHost {s : State} (h : s.Inv) (draws : Nat) (host : List HostEvent) (data : Word) :
    ({ s with draws := draws, host := host, hostData := data } : State).Inv :=
  ⟨h.inCanonical, h.outCanonical, h.outZeroAhead, h.writeInside, h.idle, h.busy, h.prefixResolved, h.done, h.noDecoder,
    h.runLength⟩

/-- While not BUSY the invariant does not look at the job's inputs, but for IN's canonical form. -/
theorem State.Inv.withInputs {s : State} (h : s.Inv) (hb : s.phase ≠ .busy) {m : Memory} (hm : Memory.wf .inStream m)
    (code : Half) (len size : Word) :
    ({ s with inMem := m, compType := code, inLen := len, targetSize := size } : State).Inv :=
  ⟨hm, h.outCanonical, h.outZeroAhead, h.writeInside, h.idle, fun hp => absurd hp hb, fun hp => absurd hp hb, h.done,
    h.noDecoder, h.runLength⟩

theorem copyCodeStarted_inv {s : State} (h : s.Inv) : (copyCodeStarted s).Inv where
  inCanonical := h.inCanonical
  outCanonical := Memory.wf_nil _
  outZeroAhead _ c hc := by cases hc
  writeInside _ := Nat.zero_le _
  idle hp := by cases hp
  busy _ := by
    refine ⟨rfl, by simp [copyCodeStarted], rfl, ?_⟩
    have hone := one_le_inLen_iff s
    simp only [copyCodeStarted]
    split
    · next hp => exact hone.2 hp.1
    · exact Nat.zero_le _
  prefixResolved _ _ h0 := by
    change s.inLen = 0 ∨ s.inByte 0 ≠ 0x00#8
    by_contra hcon
    rw [not_or, not_not] at hcon
    rw [copyCodeStarted, if_pos hcon] at h0
    exact absurd (show (1 : Word) = 0 from h0) (by decide)
  done hp := by cases hp
  noDecoder hn := by cases hn
  runLength hl := by cases hl

theorem runLengthStarted_inv {s : State} (h : s.Inv) : (runLengthStarted s).Inv where
  inCanonical := h.inCanonical
  outCanonical := Memory.wf_nil _
  outZeroAhead _ c hc := by cases hc
  writeInside _ := Nat.zero_le _
  idle hp := by cases hp
  busy _ := ⟨rfl, by simp [runLengthStarted], rfl, Nat.zero_le _⟩
  prefixResolved _ hd := by cases hd
  done hp := by cases hp
  noDecoder hn := by cases hn
  runLength _ := ⟨rfl, by simp [runLengthStarted]⟩

theorem unsupportedEnded_inv {s : State} (h : s.Inv) : (unsupportedEnded s).Inv where
  inCanonical := h.inCanonical
  outCanonical := h.outCanonical
  outZeroAhead hd := absurd rfl hd
  writeInside hd := absurd rfl hd
  idle hp := by cases hp
  busy hp := by cases hp
  prefixResolved hp := by cases hp
  done _ := ⟨by simp [unsupportedEnded], fun _ => rfl, fun _ => rfl⟩
  noDecoder _ := ⟨rfl, rfl, rfl⟩
  runLength hl := by cases hl

theorem State.Inv.start {s t : State} (h : s.Inv) (ht : start s = .next t) : t.Inv := by
  unfold Machine.start at ht
  split at ht
  · cases ht
  · cases hk : Config.compressionTypeMap s.compType with
    | copyCode => rw [hk, beginJob_copyCode] at ht; cases ht; exact copyCodeStarted_inv h
    | runLength => rw [hk, beginJob_runLength] at ht; cases ht; exact runLengthStarted_inv h
    | unsupported => rw [hk, beginJob_unsupported] at ht; cases ht; exact unsupportedEnded_inv h

theorem State.Inv.writeReg {r : HostReg} {v : Word} {s t : State} (h : s.Inv) (ht : hostWriteReg r v s = .next t) :
    t.Inv := by
  unfold hostWriteReg at ht
  split at ht
  · cases ht; exact h
  next hb =>
    cases r with
    | ctrl =>
      simp only at ht
      split at ht
      · exact h.start ht
      · cases ht; exact h
    | compType => cases ht; exact h.withInputs hb h.inCanonical _ _ _
    | inLen => cases ht; exact h.withInputs hb h.inCanonical _ _ _
    | targetSize => cases ht; exact h.withInputs hb h.inCanonical _ _ _
    | status => cases ht; exact h
    | inPos => cases ht; exact h
    | writePos => cases ht; exact h

/-- Reset gives the reset values (O49) up to the model's own fields. -/
theorem hostReset_inv (s : State) : (hostReset s).Inv := by
  obtain ⟨hin, hout, hahead, hinside, hidle, hbusy, hprefix, hdone, hnone, hrun⟩ := invariantAtReset
  exact ⟨hin, hout, hahead, hinside, hidle, hbusy, (fun hp => by cases hp), hdone, hnone, hrun⟩

theorem State.Inv.act {e : HostEvent} {s t : State} (h : s.Inv) (ht : act e s = .next t) : t.Inv := by
  cases e with
  | engineTurn => exact h.engineStep ht
  | writeReg r v => exact h.writeReg ht
  | readReg r =>
    cases ht
    unfold hostReadReg
    split <;> exact h.withHost _ _ _
  | writeIn index v =>
    cases ht
    unfold hostWriteIn
    split
    · exact h
    next hb => exact h.withInputs hb (Memory.wf_write _ _ h.inCanonical) _ _ _
  | readOut index =>
    cases ht
    unfold hostReadOut
    split <;> exact h.withHost _ _ _
  | reset => cases ht; exact hostReset_inv s

/-- Settles O50: a step is a step of the engine or an action of the host, and each keeps the invariant. -/
theorem invariantKept : Obligations.InvariantKept := by
  unfold Obligations.InvariantKept
  intro s t h ht
  unfold step turn at ht
  split at ht
  · exact h.engineStep ht
  · exact (h.withHost _ _ _).act ht

/-! ### The result of a job -/

/-- A reason that a decoder can give has a code from 1 to 5 (R181). -/
theorem MayStop.code {d : Decoder} {r : Reason} (h : MayStop d r) : 1 ≤ r.code ∧ r.code ≤ 5 := by
  cases r with
  | none => exact h.elim
  | unsupportedFormat => exact h.elim
  | endMarker | outputExhausted | inputEnd | truncatedInput | badReference => decide

/-- A running job's step advances, by 0 bytes at least. -/
theorem step_advances {s t : State} (h : s.Inv) (hs : s.Running) (ht : step s = .next t) : Advances s t 0 := by
  rw [step_running hs] at ht
  rcases busyStep_next h hs.1 ht with ⟨used, m, byte, ended, hwrote, -, hrest⟩ | ⟨hadv, -⟩
  · exact ⟨used, m, byte, ended, hwrote, Nat.zero_le _, hrest⟩
  · exact hadv

/-- Settles O57: the invariant after the step gives the zeros, and the step's frame the size. -/
theorem resultIsZeroPadded : Obligations.ResultIsZeroPadded := by
  unfold Obligations.ResultIsZeroPadded
  intro s t h hs ht hdone
  obtain ⟨hreason, hd, hsize, -⟩ := h.busy hs.1
  have htInv : t.Inv := invariantKept s t h ht
  have hadv := step_advances h hs ht
  have hended := hadv.ended hs.1 hreason
  obtain ⟨used, m, byte, ended, hwrote, -⟩ := hadv
  have hdt : t.decoder ≠ .none := hwrote.decoder ▸ hd
  refine ⟨fun k hk _ => outByte_of_not_listed fun c hc => ?_, ?_, ?_⟩
  · exact ((htInv.outZeroAhead hdt c hc).trans_le hk).ne
  · rw [hwrote.outSize, hwrote.targetSize, hsize]
  · rcases hended with ⟨hbusy, -⟩ | ⟨-, hmay⟩
    · simp [hdone] at hbusy
    · exact hmay.code

end Sys2Proof.Machine
end

section
/-!
PROOFS. A job depends on its inputs only (10_state.md R37, R40): a step takes states that agree on a job (`SameJob`) to
states that agree on it, operation by operation.
-/

namespace Sys2Proof.Machine

/-! ### Runs of the machine -/

/-- A run goes on from the state of its first step. -/
theorem run_succ {M : Host.Core} {k : Nat} {s t : M.State} (h : M.step s = .next t) : M.run (k + 1) s = M.run k t := by
  simp only [Host.Core.run, h]

/-- A run of `k + 1` steps that reaches a state took a first step. -/
theorem run_succ_inv {M : Host.Core} {k : Nat} {s u : M.State} (h : M.run (k + 1) s = .next u) :
    ∃ t, M.step s = .next t ∧ M.run k t = .next u := by
  unfold Host.Core.run at h
  split at h
  next t hstep => exact ⟨t, hstep, h⟩
  next => cases h
  next => cases h

/-- With nothing from the host a step is the engine's. -/
theorem step_hostless {s : State} (h : s.host = []) : step s = engineStep s := by
  rw [step, turn, h]

/-- The engine gives the host nothing to do. -/
theorem engineStep_hostless {s t : State} (hs : s.host = []) (h : engineStep s = .next t) : t.host = [] :=
  Kept.engineStep (P := fun u => u.host = []) ⟨fun _ _ h => h, fun _ _ _ h => h, fun _ _ h => h⟩ (fun _ _ h => h) hs h

/-! ### The elementary effects -/

theorem SameJob.consume {s t : State} (h : SameJob s t) (n : Nat) :
    SameJob (Machine.consume n s) (Machine.consume n t) :=
  { h with inBytes := h.inBytes, inPos := congrArg (· + BitVec.ofNat 32 n) h.inPos }

theorem SameJob.raiseStop {s t : State} (h : SameJob s t) (r : Reason) :
    SameJob (Machine.raiseStop r s) (Machine.raiseStop r t) :=
  { h with inBytes := h.inBytes, phase := rfl, reason := rfl }

theorem SameJob.setMode {s t : State} (h : SameJob s t) (m : Mode) :
    SameJob (Machine.setMode m s) (Machine.setMode m t) :=
  { h with inBytes := h.inBytes, mode := rfl }

theorem SameJob.putState {s t : State} (h : SameJob s t) (v : Byte) :
    SameJob (Machine.putState v s) (Machine.putState v t) :=
  { h with
    inBytes := h.inBytes
    outMem := by simp only [Machine.putState, h.outMem, h.writePos]
    writePos := congrArg (· + 1) h.writePos }

theorem SameJob.outByte {s t : State} (h : SameJob s t) (a : Nat) : s.outByte a = t.outByte a := by
  simp only [State.outByte, h.outMem]

/-! ### The shared operations -/

/-- Two runs did the same: they returned one value, stopped, or faulted alike, and left states that agree on the job. -/
inductive Run.Same {α : Type} : Run α → Run α → Prop where
  | ok (a : α) {s t : State} (h : SameJob s t) : Run.Same (.ok a s) (.ok a t)
  | stopped {s t : State} (h : SameJob s t) : Run.Same (.stopped s) (.stopped t)
  | faulted (f : Fault) : Run.Same (.faulted f) (.faulted f)

theorem Run.Same.bind {α β : Type} {r r' : Run α} {f : α → State → Run β} (h : r.Same r')
    (hf : ∀ a s t, SameJob s t → (f a s).Same (f a t)) : (r.bind f).Same (r'.bind f) := by
  cases h with
  | ok a h => exact hf a _ _ h
  | stopped h => exact .stopped h
  | faulted f => exact .faulted f

theorem fetch8_same {s t : State} (h : SameJob s t) : (fetch8 s).Same (fetch8 t) := by
  have hlen := h.inLen
  have hpos := h.inPos
  rcases Nat.lt_or_ge s.inPos.toNat s.inLen.toNat with hi | hi
  · rw [fetch8_byte hi, fetch8_byte (by rw [← hlen, ← hpos]; exact hi), h.inBytes _ hi, hpos]
    exact .ok _ (h.consume 1)
  · rw [fetch8_end hi, fetch8_end (by rw [← hlen, ← hpos]; exact hi)]
    exact .stopped (h.raiseStop _)

/-- Past the end of OUT, a state of no job, Put faults. -/
theorem put_beyond {v : Byte} {s : State} (h : s.targetSize.toNat < s.writePos.toNat) :
    put v s = .faulted .outWriteOutOfRange := by
  have hne : s.writePos ≠ s.targetSize := fun e => by rw [e] at h; omega
  rw [put, if_neg hne, memWriteOut, if_neg (by omega)]
  rfl

theorem put_same {s t : State} (h : SameJob s t) (v : Byte) : (put v s).Same (put v t) := by
  have hwrite := h.writePos
  have hsize := h.targetSize
  rcases Nat.lt_trichotomy s.writePos.toNat s.targetSize.toNat with hlt | heq | hgt
  · rw [put_room hlt, put_room (by rw [← hwrite, ← hsize]; exact hlt)]
    exact .ok _ (h.putState v)
  · have hfull : s.writePos = s.targetSize := BitVec.eq_of_toNat_eq heq
    rw [put_full hfull, put_full (by rw [← hwrite, ← hsize]; exact hfull)]
    exact .stopped (h.raiseStop _)
  · rw [put_beyond hgt, put_beyond (by rw [← hwrite, ← hsize]; exact hgt)]
    exact .faulted _

theorem memReadOut_same {s t : State} (h : SameJob s t) (a : Nat) : (memReadOut a s).Same (memReadOut a t) := by
  unfold memReadOut
  rw [h.targetSize, h.outByte]
  split
  · exact .ok _ h
  · exact .faulted _

theorem fillBytes_same (n : Nat) (v : Byte) {s t : State} (h : SameJob s t) :
    (fillBytes n v s).Same (fillBytes n v t) := by
  induction n generalizing s t with
  | zero => exact .ok _ h
  | succ n ih => exact (put_same h v).bind fun _ _ _ hput => ih hput

theorem copyLiteral_same (n : Nat) {s t : State} (h : SameJob s t) : (copyLiteral n s).Same (copyLiteral n t) := by
  induction n generalizing s t with
  | zero => exact .ok _ h
  | succ n ih =>
    rw [copyLiteral, copyLiteral, h.writePos, h.targetSize]
    split
    · exact .stopped (h.raiseStop _)
    · exact (fetch8_same h).bind fun v _ _ hfetch => (put_same hfetch v).bind fun _ _ _ hput => ih hput

theorem copyBack_same (src : Int) (n : Nat) {s t : State} (h : SameJob s t) :
    (copyBack src n s).Same (copyBack src n t) := by
  induction n generalizing src s t with
  | zero => exact .ok _ h
  | succ n ih =>
    rw [copyBack, copyBack, h.writePos, h.targetSize]
    split
    · exact .stopped (h.raiseStop _)
    split
    · exact .stopped (h.raiseStop _)
    · exact (memReadOut_same h _).bind fun v _ _ hread => (put_same hread v).bind fun _ _ _ hput => ih _ hput

theorem resolve_same {s t : State} (h : SameJob s t) (dat : Half) : resolve dat s = resolve dat t := by
  simp only [resolve, h.mode, h.writePos]

theorem distanceSource_same {s t : State} (h : SameJob s t) (dist : BitVec 12) :
    distanceSource dist s = distanceSource dist t := by
  simp only [distanceSource, h.writePos]

/-! ### Steps -/

/-- Where the first outcome is a next state, so is the second, and the two agree on the job. -/
def Follows (o o' : Host.Outcome State Fault Refusal) : Prop :=
  ∀ s', o = .next s' → ∃ t', o' = .next t' ∧ SameJob s' t'

theorem Follows.next {s t : State} (h : SameJob s t) : Follows (.next s) (.next t) := by
  intro s' hs'
  cases hs'
  exact ⟨t, rfl, h⟩

theorem Run.Same.outcome {r r' : Run Unit} (h : r.Same r') : Follows r.outcome r'.outcome := by
  cases h with
  | ok a h => exact .next h
  | stopped h => exact .next h
  | faulted f => exact fun s' hs' => by cases hs'

theorem copyBack_follows {src src' : Int} (n : Nat) {s t : State} (h : SameJob s t) (hsrc : src = src') :
    Follows (copyBack src n s).outcome (copyBack src' n t).outcome := hsrc ▸ (copyBack_same src n h).outcome

theorem exec_follows (i : Instr) {s t : State} (h : SameJob s t) : Follows (exec i s) (exec i t) := by
  have hread := h.consume i.size
  cases i with
  | rel => exact .next (hread.setMode _)
  | sbr count dist => exact copyBack_follows count hread (distanceSource_same hread dist)
  | lit count => exact (copyLiteral_same _ hread).outcome
  | endMark => exact .next (hread.raiseStop _)
  | mcp count dat => exact copyBack_follows count hread (resolve_same hread dat)
  | fill n v => exact (fillBytes_same _ v hread).outcome
  | vcp n dat => exact copyBack_follows n.toNat hread (resolve_same hread dat)
  | rlit count => exact (copyLiteral_same _ hread).outcome
  | rrep n v => exact (fillBytes_same _ v hread).outcome
  | rxt n v => exact (fillBytes_same _ v hread).outcome

theorem bytesFrom_same {s t : State} (h : SameJob s t) (k a : Nat) : bytesFrom s k a = bytesFrom t k a := by
  induction k generalizing a with
  | zero => rfl
  | succ k ih =>
    rw [bytesFrom, bytesFrom, ← h.inLen, ih]
    split
    next ha => rw [h.inBytes a ha]
    next => rfl

theorem operandWindow_same {s t : State} (h : SameJob s t) : operandWindow s = operandWindow t := by
  rw [operandWindow, bytesFrom_same h, h.inPos, operandWindow]

theorem runCommand_follows {s t : State} (h : SameJob s t) : Follows (runCommand s) (runCommand t) := by
  have hcut : SameJob (operandsCut s) (operandsCut t) := by
    rw [operandsCut, operandsCut, operandWindow_same h]
    exact (h.consume _).raiseStop _
  rw [runCommand, runCommand, h.decoder, h.inPos, operandWindow_same h]
  split
  · exact exec_follows _ h
  · exact fun s' hs' => by cases hs'
  · exact .next hcut
  · exact .next hcut

theorem busyStep_follows {s t : State} (h : SameJob s t) : Follows (busyStep s) (busyStep t) := by
  rw [busyStep, busyStep, h.writePos, h.targetSize, h.inPos, h.inLen]
  split
  · exact .next (h.raiseStop _)
  split
  · exact .next (h.raiseStop _)
  · exact runCommand_follows h

theorem engineStep_follows {s t : State} (h : SameJob s t) : Follows (engineStep s) (engineStep t) := by
  by_cases hb : s.phase = .busy
  · rw [engineStep_busy hb, engineStep_busy (h.phase ▸ hb)]
    exact busyStep_follows h
  · rw [engineStep_quiet hb, engineStep_quiet (h.phase ▸ hb)]
    exact .next h

/-- With nothing from the host, states that agree on a job agree on it after any number of steps. -/
theorem run_follows (k : Nat) {s t : State} (h : SameJob s t) (hs : s.host = []) (ht : t.host = []) :
    Follows (Host.Core.run Sys2Proof.core k s) (Host.Core.run Sys2Proof.core k t) := by
  induction k generalizing s t with
  | zero => exact .next h
  | succ k ih =>
    intro s'' hrun
    obtain ⟨s', hstep, hrest⟩ := run_succ_inv hrun
    have hengine : engineStep s = .next s' := (step_hostless hs).symm.trans hstep
    obtain ⟨t', hengine', h'⟩ := engineStep_follows h s' hengine
    have hstep' : step t = .next t' := (step_hostless ht).trans hengine'
    rw [run_succ (M := Sys2Proof.core) hstep']
    exact ih h' (engineStep_hostless hs hengine) (engineStep_hostless ht hengine') s'' hrest

/-! ### Starts -/

/-- A START that is not refused is within the capacities and begins the job of its code. -/
theorem start_next {s s' : State} (h : start s = .next s') :
    ¬(Config.inCapacity.toNat < s.inLen.toNat ∨ Config.outCapacity.toNat < s.targetSize.toNat) ∧
      beginJob (Config.compressionTypeMap s.compType) s = .next s' := by
  unfold start at h
  split at h
  · cases h
  next hcap => exact ⟨hcap, h⟩

theorem runLengthStarted_same {s t : State} (hlen : s.inLen = t.inLen) (hsize : s.targetSize = t.targetSize)
    (hbytes : ∀ a, a < s.inLen.toNat → s.inByte a = t.inByte a) :
    SameJob (runLengthStarted s) (runLengthStarted t) where
  inBytes := hbytes
  outMem := rfl
  outSize := hsize
  inPos := rfl
  writePos := rfl
  mode := rfl
  phase := rfl
  reason := rfl
  decoder := rfl
  inLen := hlen
  targetSize := hsize

theorem copyCodeStarted_same {s t : State} (hlen : s.inLen = t.inLen) (hsize : s.targetSize = t.targetSize)
    (hbytes : ∀ a, a < s.inLen.toNat → s.inByte a = t.inByte a) :
    SameJob (copyCodeStarted s) (copyCodeStarted t) := by
  have hprefix : (s.inLen ≠ 0 ∧ s.inByte 0 = 0x00#8) ↔ (t.inLen ≠ 0 ∧ t.inByte 0 = 0x00#8) := by
    rw [← hlen]
    exact and_congr_right fun hne => by rw [hbytes 0 ((one_le_inLen_iff s).2 hne)]
  exact { runLengthStarted_same hlen hsize hbytes with
    inBytes := hbytes
    inPos := by simp only [copyCodeStarted, hprefix]
    mode := by simp only [copyCodeStarted, hprefix]
    decoder := rfl }

/-- Job starts of a decoder, on the same inputs, leave states that agree on the job. -/
theorem beginJob_same {kind : Kind} (hkind : kind ≠ .unsupported) {s s' t : State} (hlen : s.inLen = t.inLen)
    (hsize : s.targetSize = t.targetSize) (hbytes : ∀ a, a < s.inLen.toNat → s.inByte a = t.inByte a)
    (h : beginJob kind s = .next s') :
    ∃ t', beginJob kind t = .next t' ∧ SameJob s' t' ∧ s'.host = s.host ∧ t'.host = t.host := by
  cases kind with
  | copyCode =>
    rw [beginJob_copyCode] at h
    cases h
    exact ⟨_, beginJob_copyCode t, copyCodeStarted_same hlen hsize hbytes, rfl, rfl⟩
  | runLength =>
    rw [beginJob_runLength] at h
    cases h
    exact ⟨_, beginJob_runLength t, runLengthStarted_same hlen hsize hbytes, rfl, rfl⟩
  | unsupported => exact absurd rfl hkind

/-- Settles O55: a START leaves states that agree on the job, and so does every step after it. -/
theorem jobsDependOnlyOnInputs : Obligations.JobsDependOnlyOnInputs := by
  unfold Obligations.JobsDependOnlyOnInputs
  intro s t s' v hs ht hhost hhost' hv hcode hlen hsize hbytes hact
  rw [act_start hs hv] at hact
  obtain ⟨hcap, hbegin⟩ := start_next hact
  have hstart : act (.writeReg .ctrl v) t = beginJob (Config.compressionTypeMap s.compType) t := by
    rw [act_start ht hv, start, ← hlen, ← hsize, ← hcode]
    exact if_neg hcap
  rw [hstart]
  by_cases hk : Config.compressionTypeMap s.compType = .unsupported
  · rw [hk, beginJob_unsupported] at hbegin
    cases hbegin
    rw [hk, beginJob_unsupported]
    exact ⟨_, rfl, rfl, rfl, rfl, rfl, rfl, rfl, fun hd => absurd rfl hd⟩
  · obtain ⟨t', ht', h, hkeep, hkeep'⟩ := beginJob_same hk hlen hsize hbytes hbegin
    exact ⟨t', ht', h.phase, h.reason, h.decoder, h.mode, h.inPos, h.writePos,
      fun _ k => run_follows k h (hkeep.trans hhost) (hkeep'.trans hhost')⟩

end Sys2Proof.Machine
end

section
/-!
PROOFS. A step of the machine is the pseudocode's (40_copy_code.md R109, 41_run_length.md R152): the bytes that a step
decodes as one window are those that the pseudocode fetches one after another.
-/

namespace Sys2Proof.Machine

/-! ### Fetching from the window -/

theorem consume_zero (s : State) : consume 0 s = s := by
  simp [consume]

/-- The window looks at IN only, so consuming moves it and changes no byte. -/
theorem bytesFrom_consume (n : Nat) (s : State) (k a : Nat) : bytesFrom (consume n s) k a = bytesFrom s k a := by
  induction k generalizing a with
  | zero => rfl
  | succ k ih => rw [bytesFrom, bytesFrom, ih, consume_inLen, consume_inByte]

/-- The next `k` bytes of the stream, or as many as there are, are `bytes`. -/
def Sees (k : Nat) (bytes : List Byte) (s : State) : Prop := bytesFrom s k s.inPos.toNat = bytes

theorem fetch8_sees {k : Nat} {b : Byte} {rest : List Byte} {s : State} (h : Sees (k + 1) (b :: rest) s) :
    fetch8 s = .ok b (consume 1 s) ∧ Sees k rest (consume 1 s) := by
  obtain ⟨hlt, hbyte, hrest⟩ := bytesFrom_cons h
  refine ⟨hbyte ▸ fetch8_byte hlt, ?_⟩
  rw [Sees, bytesFrom_consume, consume_inPos_toNat (by omega)]
  exact hrest

theorem fetch8_cut {k : Nat} {s : State} (h : Sees (k + 1) [] s) :
    fetch8 s = .stopped (raiseStop .truncatedInput s) := by
  unfold Sees bytesFrom at h
  split at h
  next => cases h
  next hi => exact fetch8_end (by omega)

/-- A fetch of two bytes, joined by `join`: the common shape of Fetch16LE and Fetch16BE (R102, R151). -/
theorem fetchTwo_sees {k : Nat} {a b : Byte} {rest : List Byte} {s : State} (join : Byte → Byte → Nat)
    (h : Sees (k + 2) (a :: b :: rest) s) :
    ((fetch8 s).bind fun x s => (fetch8 s).bind fun y s => .ok (join x y) s) = .ok (join a b) (consume 2 s) ∧
      Sees k rest (consume 2 s) := by
  obtain ⟨hfirst, h⟩ := fetch8_sees h
  obtain ⟨hsecond, h⟩ := fetch8_sees h
  rw [hfirst, Run.bind_ok, hsecond, Run.bind_ok]
  rw [consume_consume] at h ⊢
  exact ⟨rfl, h⟩

theorem fetchTwo_cut {k : Nat} {bytes : List Byte} {s : State} (join : Byte → Byte → Nat) (hlen : bytes.length < 2)
    (h : Sees (k + 2) bytes s) :
    ((fetch8 s).bind fun x s => (fetch8 s).bind fun y s => .ok (join x y) s) =
      .stopped (raiseStop .truncatedInput (consume bytes.length s)) := by
  match bytes, hlen with
  | [], _ => rw [fetch8_cut h, Run.bind_stopped, List.length_nil, consume_zero]
  | [a], _ =>
    obtain ⟨hfirst, h⟩ := fetch8_sees h
    rw [hfirst, Run.bind_ok, fetch8_cut h]
    rfl

theorem fetch16LE_sees {k : Nat} {lo hi : Byte} {rest : List Byte} {s : State} (h : Sees (k + 2) (lo :: hi :: rest) s) :
    fetch16LE s = .ok (wordLE lo hi).toNat (consume 2 s) ∧ Sees k rest (consume 2 s) := by
  rw [wordLE, BitVec.toNat_append]
  exact fetchTwo_sees (fun x y => y.toNat <<< 8 ||| x.toNat) h

theorem fetch16LE_cut {k : Nat} {bytes : List Byte} {s : State} (hlen : bytes.length < 2) (h : Sees (k + 2) bytes s) :
    fetch16LE s = .stopped (raiseStop .truncatedInput (consume bytes.length s)) := fetchTwo_cut _ hlen h

theorem fetch16BE_sees {k : Nat} {hi lo : Byte} {rest : List Byte} {s : State} (h : Sees (k + 2) (hi :: lo :: rest) s) :
    fetch16BE s = .ok (wordBE hi lo).toNat (consume 2 s) ∧ Sees k rest (consume 2 s) := by
  rw [wordBE, BitVec.toNat_append]
  exact fetchTwo_sees (fun x y => x.toNat <<< 8 ||| y.toNat) h

theorem fetch16BE_cut {k : Nat} {bytes : List Byte} {s : State} (hlen : bytes.length < 2) (h : Sees (k + 2) bytes s) :
    fetch16BE s = .stopped (raiseStop .truncatedInput (consume bytes.length s)) := fetchTwo_cut _ hlen h

/-! ### The fields as the pseudocode computes them -/

theorem and_0x3F_eq_lowSix (op : Byte) : op.toNat &&& 0x3F = lowSix op := by
  rw [lowSix_eq]
  exact Nat.and_two_pow_sub_one_eq_mod op.toNat 6

theorem shift_eq_sbrCount {op : Byte} (h7 : op.getLsbD 7 = false) : (op.toNat >>> 4) + 3 = sbrCount op := by
  have hop := (bit7_clear_iff op).1 h7
  rw [sbrCount_eq, Nat.shiftRight_eq_div_pow]
  omega

theorem join_eq_sbrDist (op b : Byte) : (op.toNat &&& 0x0F) <<< 8 ||| b.toNat = (sbrDist op b).toNat := by
  rw [sbrDist, BitVec.toNat_append, BitVec.extractLsb'_toNat, Nat.shiftRight_zero]
  congr 2
  exact Nat.and_two_pow_sub_one_eq_mod op.toNat 4

theorem resolveWord_eq_resolve (dat : Half) (s : State) : resolveWord dat.toNat s = resolve dat s := by
  unfold resolveWord resolve
  cases s.mode <;> rfl

theorem sext8_eq_toInt (k : Byte) : sext8 k = k.toInt := (toInt_eq_sext8 k).symm

/-! ### The commands after their first byte -/

theorem sbrBytes_sees {k : Nat} {op b : Byte} {rest : List Byte} {s : State} (h7 : op.getLsbD 7 = false)
    (h : Sees (k + 1) (b :: rest) s) :
    sbrBytes op s = copyBack (distanceSource (sbrDist op b) (consume 1 s)) (sbrCount op) (consume 1 s) := by
  rw [sbrBytes, (fetch8_sees h).1, Run.bind_ok]
  simp only [shift_eq_sbrCount h7, join_eq_sbrDist]
  rfl

theorem sbrBytes_cut {k : Nat} {op : Byte} {bytes : List Byte} {s : State} (hlen : bytes.length < 1)
    (h : Sees (k + 1) bytes s) :
    sbrBytes op s = .stopped (raiseStop .truncatedInput (consume bytes.length s)) := by
  obtain rfl : bytes = [] := List.length_eq_zero_iff.1 (by omega)
  rw [sbrBytes, fetch8_cut h, Run.bind_stopped, List.length_nil, consume_zero]

theorem mcpBytes_sees {k : Nat} {op lo hi : Byte} {rest : List Byte} {s : State}
    (h : Sees (k + 2) (lo :: hi :: rest) s) :
    mcpBytes op s = copyBack (resolve (wordLE lo hi) (consume 2 s)) (lowSix op + 3) (consume 2 s) := by
  rw [mcpBytes, (fetch16LE_sees h).1, Run.bind_ok, resolveWord_eq_resolve, and_0x3F_eq_lowSix]

theorem mcpBytes_cut {k : Nat} {op : Byte} {bytes : List Byte} {s : State} (hlen : bytes.length < 2)
    (h : Sees (k + 2) bytes s) :
    mcpBytes op s = .stopped (raiseStop .truncatedInput (consume bytes.length s)) := by
  rw [mcpBytes, fetch16LE_cut hlen h, Run.bind_stopped]

theorem fillBytesCommand_sees {k : Nat} {lo hi v : Byte} {rest : List Byte} {s : State}
    (h : Sees (k + 3) (lo :: hi :: v :: rest) s) :
    fillBytesCommand s = fillBytes (wordLE lo hi).toNat v (consume 3 s) := by
  obtain ⟨hcount, h⟩ := fetch16LE_sees h
  rw [fillBytesCommand, hcount, Run.bind_ok, (fetch8_sees h).1, Run.bind_ok, consume_consume]

theorem fillBytesCommand_cut {k : Nat} {bytes : List Byte} {s : State} (hlen : bytes.length < 3)
    (h : Sees (k + 3) bytes s) :
    fillBytesCommand s = .stopped (raiseStop .truncatedInput (consume bytes.length s)) := by
  rcases Nat.lt_or_ge bytes.length 2 with hshort | hlong
  · rw [fillBytesCommand, fetch16LE_cut hshort h, Run.bind_stopped]
  · match bytes, hlen, hlong with
    | [lo, hi], _, _ =>
      obtain ⟨hcount, h⟩ := fetch16LE_sees h
      rw [fillBytesCommand, hcount, Run.bind_ok, fetch8_cut h]
      rfl

theorem vcpBytes_sees {k : Nat} {nlo nhi dlo dhi : Byte} {rest : List Byte} {s : State}
    (h : Sees (k + 4) (nlo :: nhi :: dlo :: dhi :: rest) s) :
    vcpBytes s = copyBack (resolve (wordLE dlo dhi) (consume 4 s)) (wordLE nlo nhi).toNat (consume 4 s) := by
  obtain ⟨hcount, h⟩ := fetch16LE_sees h
  rw [vcpBytes, hcount, Run.bind_ok, (fetch16LE_sees h).1, Run.bind_ok, resolveWord_eq_resolve, consume_consume]

theorem vcpBytes_cut {k : Nat} {bytes : List Byte} {s : State} (hlen : bytes.length < 4)
    (h : Sees (k + 4) bytes s) :
    vcpBytes s = .stopped (raiseStop .truncatedInput (consume bytes.length s)) := by
  rcases Nat.lt_or_ge bytes.length 2 with hshort | hlong
  · rw [vcpBytes, fetch16LE_cut hshort h, Run.bind_stopped]
  · match bytes, hlong with
    | nlo :: nhi :: rest, _ =>
      have hrest : rest.length < 2 := by
        simp only [List.length_cons] at hlen
        omega
      obtain ⟨hcount, h⟩ := fetch16LE_sees h
      rw [vcpBytes, hcount, Run.bind_ok, fetch16LE_cut hrest h, Run.bind_stopped, consume_consume, Nat.add_comm]
      rfl

theorem rrepBytes_sees {k : Nat} {b : Int} {v : Byte} {rest : List Byte} {s : State}
    (h : Sees (k + 1) (v :: rest) s) : rrepBytes b s = fillBytes (-b).toNat v (consume 1 s) := by
  rw [rrepBytes, (fetch8_sees h).1, Run.bind_ok]

theorem rrepBytes_cut {k : Nat} {b : Int} {bytes : List Byte} {s : State} (hlen : bytes.length < 1)
    (h : Sees (k + 1) bytes s) :
    rrepBytes b s = .stopped (raiseStop .truncatedInput (consume bytes.length s)) := by
  obtain rfl : bytes = [] := List.length_eq_zero_iff.1 (by omega)
  rw [rrepBytes, fetch8_cut h, Run.bind_stopped, List.length_nil, consume_zero]

theorem rxtBytes_sees {k : Nat} {hi lo v : Byte} {rest : List Byte} {s : State}
    (h : Sees (k + 3) (hi :: lo :: v :: rest) s) :
    rxtBytes s = fillBytes (wordBE hi lo).toNat v (consume 3 s) := by
  obtain ⟨hcount, h⟩ := fetch16BE_sees h
  rw [rxtBytes, hcount, Run.bind_ok, (fetch8_sees h).1, Run.bind_ok, consume_consume]

theorem rxtBytes_cut {k : Nat} {bytes : List Byte} {s : State} (hlen : bytes.length < 3)
    (h : Sees (k + 3) bytes s) :
    rxtBytes s = .stopped (raiseStop .truncatedInput (consume bytes.length s)) := by
  rcases Nat.lt_or_ge bytes.length 2 with hshort | hlong
  · rw [rxtBytes, fetch16BE_cut hshort h, Run.bind_stopped]
  · match bytes, hlen, hlong with
    | [hi, lo], _, _ =>
      obtain ⟨hcount, h⟩ := fetch16BE_sees h
      rw [rxtBytes, hcount, Run.bind_ok, fetch8_cut h]
      rfl

/-! ### The machine's command is the pseudocode's -/

/-- CCD_Step's dispatch on the opcode, after it is fetched (R109). -/
def ccdCommand (op : Byte) (s : State) : Run Unit :=
  if op.getLsbD 7 = false then sbrBytes op s
  else if op.getLsbD 6 = false then
    if op.toNat &&& 0x3F = 0 then endBytes s else litBytes op s
  else if op.toNat &&& 0x3F < 0x3E then mcpBytes op s
  else if op.toNat &&& 0x3F = 0x3E then fillBytesCommand s
  else vcpBytes s

/-- RLD_Step's dispatch on the control byte, after it is fetched (R152). -/
def rldCommand (k : Byte) (s : State) : Run Unit :=
  if 0 < sext8 k then copyLiteral (sext8 k).toNat s
  else if sext8 k < 0 then rrepBytes (sext8 k) s
  else rxtBytes s

theorem ccdStep_eq (s : State) :
    ccdStep s =
      if s.writePos = s.targetSize then .stopped (raiseStop .outputExhausted s)
      else if s.inPos = s.inLen then .stopped (raiseStop .inputEnd s)
      else (fetch8 s).bind ccdCommand := rfl

theorem rldStep_eq (s : State) :
    rldStep s =
      if s.writePos = s.targetSize then .stopped (raiseStop .outputExhausted s)
      else if s.inPos = s.inLen then .stopped (raiseStop .inputEnd s)
      else (fetch8 s).bind rldCommand := rfl

/-- One row of an opcode map, whose commands have `n` operand bytes after the first byte: the machine's command is the
pseudocode's `command` when they agree where the operands are cut short and where they are there. -/
theorem runCommand_row {s : State} {op : Byte} {rest : List Byte} {command : State → Run Unit} (n : Nat)
    (hw : operandWindow s = op :: rest)
    (hcut : rest.length < n → decode s.decoder s.inPos.toNat (op :: rest) = .error .truncated ∧
      command (consume 1 s) = .stopped (raiseStop .truncatedInput (consume rest.length (consume 1 s))))
    (hfull : n ≤ rest.length → ∃ i after, decode s.decoder s.inPos.toNat (op :: rest) = .ok (i, after) ∧
      exec i s = (command (consume 1 s)).outcome) :
    runCommand s = (command (consume 1 s)).outcome := by
  rcases Nat.lt_or_ge rest.length n with hshort | hlong
  · obtain ⟨hdec, hcommand⟩ := hcut hshort
    rw [hcommand, Run.outcome_stopped, consume_consume]
    simp only [runCommand, operandsCut, hw, hdec, List.length_cons, Nat.add_comm]
  · obtain ⟨i, after, hdec, hexec⟩ := hfull hlong
    rw [← hexec]
    exact runCommand_decoded (hw ▸ hdec)

section
variable {s : State} {op : Byte} {rest : List Byte} (hd : s.decoder = .copyCode) (hw : operandWindow s = op :: rest)
  (hrel : ¬(s.inPos.toNat = 0 ∧ op = 0x00#8))
include hd hw hrel

theorem runCommand_sbr (h7 : op.getLsbD 7 = false) : runCommand s = (sbrBytes op (consume 1 s)).outcome := by
  have hsees := (fetch8_sees hw).2
  refine runCommand_row 1 hw (fun hshort => ⟨?_, sbrBytes_cut hshort hsees⟩) (fun hlong => ?_)
  · simp only [hd, decode, decodeCopyCode, if_neg hrel, if_pos h7]
    split
    · simp only [List.length_cons] at hshort; omega
    · rfl
  · match rest, hlong with
    | b :: rest, _ =>
      refine ⟨.sbr (sbrCount op) (sbrDist op b), rest, ?_, ?_⟩
      · simp only [hd, decode, decodeCopyCode, if_neg hrel, if_pos h7]
      · rw [sbrBytes_sees h7 hsees, consume_consume]
        rfl

theorem runCommand_endMark (h7 : ¬op.getLsbD 7 = false) (h6 : op.getLsbD 6 = false) (hsix : lowSix op = 0) :
    runCommand s = (endBytes (consume 1 s)).outcome := by
  refine runCommand_row 0 hw (fun hshort => absurd hshort (Nat.not_lt_zero _)) fun _ => ⟨.endMark, rest, ?_, rfl⟩
  simp only [hd, decode, decodeCopyCode, if_neg hrel, if_neg h7, if_pos h6, if_pos hsix]

theorem runCommand_lit (h7 : ¬op.getLsbD 7 = false) (h6 : op.getLsbD 6 = false) (hsix : ¬lowSix op = 0) :
    runCommand s = (litBytes op (consume 1 s)).outcome := by
  refine runCommand_row 0 hw (fun hshort => absurd hshort (Nat.not_lt_zero _)) fun _ =>
    ⟨.lit (lowSix op), rest, ?_, ?_⟩
  · simp only [hd, decode, decodeCopyCode, if_neg hrel, if_neg h7, if_pos h6, if_neg hsix]
  · rw [litBytes, and_0x3F_eq_lowSix]
    rfl

theorem runCommand_mcp (h7 : ¬op.getLsbD 7 = false) (h6 : ¬op.getLsbD 6 = false) (hsix : lowSix op < 0x3E) :
    runCommand s = (mcpBytes op (consume 1 s)).outcome := by
  have hsees := (fetch8_sees hw).2
  refine runCommand_row 2 hw (fun hshort => ⟨?_, mcpBytes_cut hshort hsees⟩) (fun hlong => ?_)
  · simp only [hd, decode, decodeCopyCode, if_neg hrel, if_neg h7, if_neg h6, if_pos hsix]
    split
    · simp only [List.length_cons] at hshort; omega
    · rfl
  · match rest, hlong with
    | lo :: hi :: rest, _ =>
      refine ⟨.mcp (lowSix op + 3) (wordLE lo hi), rest, ?_, ?_⟩
      · simp only [hd, decode, decodeCopyCode, if_neg hrel, if_neg h7, if_neg h6, if_pos hsix]
      · rw [mcpBytes_sees hsees, consume_consume]
        rfl

theorem runCommand_fill (h7 : ¬op.getLsbD 7 = false) (h6 : ¬op.getLsbD 6 = false) (hlt : ¬lowSix op < 0x3E)
    (hsix : lowSix op = 0x3E) : runCommand s = (fillBytesCommand (consume 1 s)).outcome := by
  have hsees := (fetch8_sees hw).2
  refine runCommand_row 3 hw (fun hshort => ⟨?_, fillBytesCommand_cut hshort hsees⟩) (fun hlong => ?_)
  · simp only [hd, decode, decodeCopyCode, if_neg hrel, if_neg h7, if_neg h6, if_neg hlt, if_pos hsix]
    split
    · simp only [List.length_cons] at hshort; omega
    · rfl
  · match rest, hlong with
    | lo :: hi :: v :: rest, _ =>
      refine ⟨.fill (wordLE lo hi) v, rest, ?_, ?_⟩
      · simp only [hd, decode, decodeCopyCode, if_neg hrel, if_neg h7, if_neg h6, if_neg hlt, if_pos hsix]
      · rw [fillBytesCommand_sees hsees, consume_consume]
        rfl

theorem runCommand_vcp (h7 : ¬op.getLsbD 7 = false) (h6 : ¬op.getLsbD 6 = false) (hlt : ¬lowSix op < 0x3E)
    (hsix : ¬lowSix op = 0x3E) : runCommand s = (vcpBytes (consume 1 s)).outcome := by
  have hsees := (fetch8_sees hw).2
  refine runCommand_row 4 hw (fun hshort => ⟨?_, vcpBytes_cut hshort hsees⟩) (fun hlong => ?_)
  · simp only [hd, decode, decodeCopyCode, if_neg hrel, if_neg h7, if_neg h6, if_neg hlt, if_neg hsix]
    split
    · simp only [List.length_cons] at hshort; omega
    · rfl
  · match rest, hlong with
    | nlo :: nhi :: dlo :: dhi :: rest, _ =>
      refine ⟨.vcp (wordLE nlo nhi) (wordLE dlo dhi), rest, ?_, ?_⟩
      · simp only [hd, decode, decodeCopyCode, if_neg hrel, if_neg h7, if_neg h6, if_neg hlt, if_neg hsix]
      · rw [vcpBytes_sees hsees, consume_consume]
        rfl

/-- The CCD's command at IN_POS, off an unresolved REL, is the pseudocode's. -/
theorem runCommand_eq_ccdCommand : runCommand s = (ccdCommand op (consume 1 s)).outcome := by
  simp only [ccdCommand, and_0x3F_eq_lowSix]
  split
  next h7 => exact runCommand_sbr hd hw hrel h7
  split
  next h7 h6 =>
    split
    next hsix => exact runCommand_endMark hd hw hrel h7 h6 hsix
    next hsix => exact runCommand_lit hd hw hrel h7 h6 hsix
  split
  next h7 h6 hlt => exact runCommand_mcp hd hw hrel h7 h6 hlt
  split
  next h7 h6 hlt hsix => exact runCommand_fill hd hw hrel h7 h6 hlt hsix
  next h7 h6 hlt hsix => exact runCommand_vcp hd hw hrel h7 h6 hlt hsix

end

section
variable {s : State} {k : Byte} {rest : List Byte} (hd : s.decoder = .runLength) (hw : operandWindow s = k :: rest)
include hd hw

theorem runCommand_rlit (hk : 0 < k.toInt) : runCommand s = (copyLiteral k.toInt.toNat (consume 1 s)).outcome := by
  refine runCommand_row 0 hw (fun hshort => absurd hshort (Nat.not_lt_zero _)) fun _ =>
    ⟨.rlit k.toInt.toNat, rest, ?_, rfl⟩
  simp only [hd, decode, decodeRunLength, if_pos hk]

theorem runCommand_rrep (hpos : ¬0 < k.toInt) (hneg : k.toInt < 0) :
    runCommand s = (rrepBytes k.toInt (consume 1 s)).outcome := by
  have hsees := (fetch8_sees hw).2
  refine runCommand_row 1 hw (fun hshort => ⟨?_, rrepBytes_cut hshort hsees⟩) (fun hlong => ?_)
  · simp only [hd, decode, decodeRunLength, if_neg hpos, if_pos hneg]
    split
    · simp only [List.length_cons] at hshort; omega
    · rfl
  · match rest, hlong with
    | v :: rest, _ =>
      refine ⟨.rrep (rrepCount k) v, rest, ?_, ?_⟩
      · simp only [hd, decode, decodeRunLength, if_neg hpos, if_pos hneg]
      · rw [rrepBytes_sees hsees, consume_consume]
        rfl

theorem runCommand_rxt (hpos : ¬0 < k.toInt) (hneg : ¬k.toInt < 0) :
    runCommand s = (rxtBytes (consume 1 s)).outcome := by
  have hsees := (fetch8_sees hw).2
  refine runCommand_row 3 hw (fun hshort => ⟨?_, rxtBytes_cut hshort hsees⟩) (fun hlong => ?_)
  · simp only [hd, decode, decodeRunLength, if_neg hpos, if_neg hneg]
    split
    · simp only [List.length_cons] at hshort; omega
    · rfl
  · match rest, hlong with
    | hi :: lo :: v :: rest, _ =>
      refine ⟨.rxt (wordBE hi lo) v, rest, ?_, ?_⟩
      · simp only [hd, decode, decodeRunLength, if_neg hpos, if_neg hneg]
      · rw [rxtBytes_sees hsees, consume_consume]
        rfl

/-- The RLD's command at IN_POS is the pseudocode's. -/
theorem runCommand_eq_rldCommand : runCommand s = (rldCommand k (consume 1 s)).outcome := by
  simp only [rldCommand, sext8_eq_toInt]
  split
  next hpos => exact runCommand_rlit hd hw hpos
  split
  next hpos hneg => exact runCommand_rrep hd hw hpos hneg
  next hpos hneg => exact runCommand_rxt hd hw hpos hneg

end

/-! ### A step is the pseudocode's -/

/-- Where IN holds nothing more, the machine and Fetch8 stop alike. -/
theorem runCommand_empty {s : State} (hd : s.decoder ≠ .none) (hw : operandWindow s = []) :
    runCommand s = .next (raiseStop .truncatedInput s) := by
  have hcut : operandsCut s = raiseStop .truncatedInput s := by
    rw [operandsCut, hw, List.length_nil, consume_zero]
  cases hdec : s.decoder with
  | none => exact absurd hdec hd
  | copyCode => simp only [runCommand, hdec, hw, decode, decodeCopyCode, hcut]
  | runLength => simp only [runCommand, hdec, hw, decode, decodeRunLength, hcut]

/-- A step of a running job is the pseudocode's, given that its commands after the first byte are. -/
theorem step_eq_pseudocode {s : State} {command : Byte → State → Run Unit} (hs : s.Running) (hd : s.decoder ≠ .none)
    (hcommand : ∀ op rest, operandWindow s = op :: rest → runCommand s = (command op (consume 1 s)).outcome) :
    step s = Run.outcome
      (if s.writePos = s.targetSize then .stopped (raiseStop .outputExhausted s)
      else if s.inPos = s.inLen then .stopped (raiseStop .inputEnd s)
      else (fetch8 s).bind command) := by
  rw [step_running hs, busyStep]
  split
  · rfl
  split
  · rfl
  cases hw : operandWindow s with
  | nil => rw [runCommand_empty hd hw, fetch8_cut hw]; rfl
  | cons op rest => rw [hcommand op rest hw, (fetch8_sees hw).1, Run.bind_ok]

/-- A CCD step is CCD_Step, off an unresolved REL (R109). -/
theorem step_eq_ccdStep {s : State} (hs : s.Running) (hd : s.decoder = .copyCode)
    (hprefix : ¬(s.inPos = 0 ∧ s.inLen ≠ 0 ∧ s.inByte 0 = 0x00#8)) : step s = (ccdStep s).outcome := by
  rw [ccdStep_eq]
  refine step_eq_pseudocode hs (by simp [hd]) fun op rest hw => runCommand_eq_ccdCommand hd hw ?_
  rintro ⟨hindex, rfl⟩
  exact hprefix (unresolvedRel_of_window hindex hw)

/-- An RLD step is RLD_Step (R152). -/
theorem step_eq_rldStep {s : State} (hs : s.Running) (hd : s.decoder = .runLength) : step s = (rldStep s).outcome := by
  rw [rldStep_eq]
  exact step_eq_pseudocode hs (by simp [hd]) fun op rest hw => runCommand_eq_rldCommand hd hw

/-! ### PHASE after a run -/

/-- A run that returns leaves PHASE at `p`, and one that stops leaves DONE. -/
def Run.EndsIn {α : Type} (p : Phase) : Run α → Prop
  | .ok _ t => t.phase = p
  | .stopped t => t.phase = .done
  | .faulted _ => True

theorem Run.EndsIn.bind {α β : Type} {p : Phase} {r : Run α} {f : α → State → Run β} (h : r.EndsIn p)
    (hf : ∀ a t, t.phase = p → (f a t).EndsIn p) : (r.bind f).EndsIn p := by
  cases r with
  | ok a t => exact hf a t h
  | stopped t => exact h
  | faulted f => trivial

theorem fetch8_endsIn (s : State) : (fetch8 s).EndsIn s.phase := by
  unfold fetch8
  split <;> rfl

theorem put_endsIn (v : Byte) (s : State) : (put v s).EndsIn s.phase := by
  rcases put_cases v s with e | e | e <;> rw [e]
  · rfl
  · rfl
  · trivial

theorem memReadOut_endsIn (a : Nat) (s : State) : (memReadOut a s).EndsIn s.phase := by
  unfold memReadOut
  split
  · rfl
  · trivial

theorem fillBytes_endsIn (n : Nat) (v : Byte) (s : State) : (fillBytes n v s).EndsIn s.phase := by
  induction n generalizing s with
  | zero => rfl
  | succ n ih => exact (put_endsIn v s).bind fun _ t ht => ht ▸ ih t

theorem copyLiteral_endsIn (n : Nat) (s : State) : (copyLiteral n s).EndsIn s.phase := by
  induction n generalizing s with
  | zero => rfl
  | succ n ih =>
    rw [copyLiteral]
    split
    · rfl
    · exact (fetch8_endsIn s).bind fun v t ht => ht ▸ (put_endsIn v t).bind fun _ u hu => hu ▸ ih u

theorem copyBack_endsIn (src : Int) (n : Nat) (s : State) : (copyBack src n s).EndsIn s.phase := by
  induction n generalizing src s with
  | zero => rfl
  | succ n ih =>
    rw [copyBack]
    split
    · rfl
    split
    · rfl
    · exact (memReadOut_endsIn _ s).bind fun v t ht => ht ▸ (put_endsIn v t).bind fun _ u hu => hu ▸ ih _ u

theorem fetch16LE_endsIn (s : State) : (fetch16LE s).EndsIn s.phase :=
  (fetch8_endsIn s).bind fun _ t ht => ht ▸ (fetch8_endsIn t).bind fun _ _ hu => hu

theorem fetch16BE_endsIn (s : State) : (fetch16BE s).EndsIn s.phase :=
  (fetch8_endsIn s).bind fun _ t ht => ht ▸ (fetch8_endsIn t).bind fun _ _ hu => hu

theorem ccdCommand_endsIn (op : Byte) (s : State) : (ccdCommand op s).EndsIn s.phase := by
  unfold ccdCommand
  split
  · exact (fetch8_endsIn s).bind fun _ t ht => ht ▸ copyBack_endsIn _ _ t
  split
  · split
    · rfl
    · exact copyLiteral_endsIn _ s
  split
  · exact (fetch16LE_endsIn s).bind fun _ t ht => ht ▸ copyBack_endsIn _ _ t
  split
  · exact (fetch16LE_endsIn s).bind fun _ t ht => ht ▸ (fetch8_endsIn t).bind fun _ u hu => hu ▸ fillBytes_endsIn _ _ u
  · exact (fetch16LE_endsIn s).bind fun _ t ht =>
      ht ▸ (fetch16LE_endsIn t).bind fun _ u hu => hu ▸ copyBack_endsIn _ _ u

theorem rldCommand_endsIn (k : Byte) (s : State) : (rldCommand k s).EndsIn s.phase := by
  unfold rldCommand
  split
  · exact copyLiteral_endsIn _ s
  split
  · exact (fetch8_endsIn s).bind fun _ t ht => ht ▸ fillBytes_endsIn _ _ t
  · exact (fetch16BE_endsIn s).bind fun _ t ht => ht ▸ (fetch8_endsIn t).bind fun _ u hu => hu ▸ fillBytes_endsIn _ _ u

/-- The two checks at the top of a step stop in DONE too. -/
theorem pseudocode_endsIn {s : State} {command : Byte → State → Run Unit}
    (hcommand : ∀ op t, (command op t).EndsIn t.phase) :
    Run.EndsIn s.phase
      (if s.writePos = s.targetSize then .stopped (raiseStop .outputExhausted s)
      else if s.inPos = s.inLen then .stopped (raiseStop .inputEnd s)
      else (fetch8 s).bind command) := by
  split
  · rfl
  split
  · rfl
  · exact (fetch8_endsIn s).bind fun op t ht => ht ▸ hcommand op t

theorem ccdStep_endsIn (s : State) : (ccdStep s).EndsIn s.phase := pseudocode_endsIn ccdCommand_endsIn

theorem rldStep_endsIn (s : State) : (rldStep s).EndsIn s.phase := pseudocode_endsIn rldCommand_endsIn

end Sys2Proof.Machine
end

section
/-!
PROOFS. A whole job as one function (40_copy_code.md R116, 41_run_length.md R156) is the machine's run: each step is the
pseudocode's, a step that goes on consumes a byte, and DONE is quiet.
-/

namespace Sys2Proof.Machine

/-- IDLE and DONE stay as they are, for any number of steps (R190, R195). -/
theorem run_quiet (k : Nat) {s : State} (hb : s.phase ≠ .busy) (hhost : s.host = []) :
    Host.Core.run Sys2Proof.core k s = .next s := by
  induction k with
  | zero => rfl
  | succ k ih =>
    have hstep : step s = .next s := (step_hostless hhost).trans (engineStep_quiet hb)
    exact (run_succ (M := Sys2Proof.core) hstep).trans ih

/-- A step after which the job still runs keeps what a running job has, and leaves less of IN ahead. -/
theorem running_step {s t : State} (h : s.Inv) (hs : s.Running) (ht : step s = .next t) (hb : t.phase = .busy) :
    t.Inv ∧ t.Running ∧ t.decoder = s.decoder ∧ t.ahead 0 < s.ahead 0 := by
  have hbusy : busyStep s = .next t := (step_running hs).symm.trans ht
  rcases busyStep_next h hs.1 hbusy with ⟨used, m, byte, ended, hwrote, hone, hused, -⟩ | ⟨-, hdone, -⟩
  · refine ⟨invariantKept s t h ht, ⟨hb, hwrote.host.trans hs.2⟩, hwrote.decoder, ?_⟩
    simp only [State.ahead, hwrote.inPos, hwrote.inLen] at hused ⊢
    omega
  · simp [hdone] at hb

/-- In a job of decoder `d` the machine's step is `oneStep`, which returns with PHASE = BUSY or stops. -/
def StepsAs (d : Decoder) (oneStep : State → Run Unit) : Prop :=
  ∀ s : State, s.Inv → s.Running → s.decoder = d → step s = (oneStep s).outcome ∧ (oneStep s).EndsIn .busy

/-- The loop of R116 and R156 stops within one step more than the bytes that IN has left, where the machine's run of as
many steps is. -/
theorem untilStop_is_run {oneStep : State → Run Unit} {d : Decoder}
    (hstep : StepsAs d oneStep)
    (bound : Nat) {s : State} (h : s.Inv) (hs : s.Running) (hd : s.decoder = d) (hbound : s.ahead 0 < bound) :
    ∃ u, untilStop oneStep bound s = .stopped u ∧ u.phase = .done ∧
      Host.Core.run Sys2Proof.core bound s = .next u := by
  induction bound generalizing s with
  | zero => exact absurd hbound (Nat.not_lt_zero _)
  | succ bound ih =>
    obtain ⟨heq, hends⟩ := hstep s h hs hd
    obtain ⟨t, ht, -⟩ := busyStep_advances h hs.1
    have hbusy : step s = .next t := (step_running hs).trans ht
    have hhost : t.host = [] := engineStep_hostless hs.2 ((engineStep_busy hs.1).trans ht)
    rw [run_succ (M := Sys2Proof.core) hbusy, untilStop]
    cases hrun : oneStep s with
    | ok a t' =>
      rw [hrun] at heq hends
      obtain rfl : t = t' := Host.Outcome.next.inj (hbusy.symm.trans heq)
      obtain ⟨hInv, hRunning, hdecoder, hless⟩ := running_step h hs hbusy hends
      exact ih hInv hRunning (hdecoder.trans hd) (by omega)
    | stopped t' =>
      rw [hrun] at heq hends
      obtain rfl : t = t' := Host.Outcome.next.inj (hbusy.symm.trans heq)
      have hdone : t.phase = .done := hends
      exact ⟨t, rfl, hdone, run_quiet bound (by simp [hdone]) hhost⟩
    | faulted f =>
      rw [hrun] at heq
      cases hbusy.symm.trans heq

/-- A whole job whose START leaves a running job of its decoder. -/
theorem wholeJob_is_run {oneStep : State → Run Unit} {d : Decoder} {kind : Kind} {s t : State}
    (hstep : StepsAs d oneStep)
    (hbegin : beginJob kind s = .next t) (h : t.Inv) (ht : t.Running) (hd : t.decoder = d) (hlen : t.inLen = s.inLen) :
    ∃ t u, beginJob kind s = .next t ∧ wholeJob kind oneStep s = .next u ∧ u.phase = .done ∧
      Host.Core.run Sys2Proof.core (s.inLen.toNat + 1) t = .next u := by
  have hbound : t.ahead 0 < s.inLen.toNat + 1 := by
    rw [State.ahead, hlen]
    omega
  obtain ⟨u, hloop, hdone, hrun⟩ := untilStop_is_run hstep _ h ht hd hbound
  refine ⟨t, u, hbegin, ?_, hdone, hrun⟩
  simp only [wholeJob, hbegin, hlen, hloop, Run.outcome_stopped]

theorem ccdStep_stepsAs : StepsAs .copyCode ccdStep := by
  intro s h hs hd
  refine ⟨step_eq_ccdStep hs hd fun ⟨hpos, hlen, hbyte⟩ => ?_, hs.1 ▸ ccdStep_endsIn s⟩
  rcases h.prefixResolved hs.1 hd hpos with hl | hne
  · exact hlen hl
  · exact hne hbyte

theorem rldStep_stepsAs : StepsAs .runLength rldStep :=
  fun s _ hs hd => ⟨step_eq_rldStep hs hd, hs.1 ▸ rldStep_endsIn s⟩

/-- Settles O54: the loop of a whole job is the machine's run, for either decoder's step. -/
theorem wholeJobIsTheMachinesRun : Obligations.WholeJobIsTheMachinesRun := by
  unfold Obligations.WholeJobIsTheMachinesRun
  intro s h hhost
  exact ⟨wholeJob_is_run ccdStep_stepsAs (beginJob_copyCode s) (copyCodeStarted_inv h) ⟨rfl, hhost⟩ rfl rfl,
    wholeJob_is_run rldStep_stepsAs (beginJob_runLength s) (runLengthStarted_inv h) ⟨rfl, hhost⟩ rfl rfl⟩

end Sys2Proof.Machine
end

section
/-!
PROOFS. The memory rules (20_memory.md): a back-reference reads its own output (R61, R106, R223), the frame of every
command (R51, R52, R119), the host's load of IN (R66), and engines that share nothing (R67, R194).
-/

namespace Sys2Proof.Machine

/-! ### A back-reference reads its own output -/

/-- Bytes written with period WRITE_POS - src repeat the bytes from `src` on: below WRITE_POS those are the old bytes,
from there on they are the command's own. -/
theorem Wrote.reads_own_output {s t : State} {used m src k : Nat} {ended : Option Reason}
    (h : Wrote s t used m (fun i => s.outByte (src + i % (s.writePos.toNat - src))) ended)
    (hsrc : src < s.writePos.toNat) (hk : k < m) :
    t.outByte (s.writePos.toNat + k) = t.outByte (src + k) := by
  rw [h.written k hk]
  rcases Nat.lt_or_ge k (s.writePos.toNat - src) with hold | hown
  · rw [h.untouched (src + k) (.inl (by omega)), Nat.mod_eq_of_lt hold]
  · have hsplit : src + k = s.writePos.toNat + (k - (s.writePos.toNat - src)) := by omega
    rw [hsplit, h.written _ (by omega), Nat.mod_eq_sub_mod hown]

theorem CopiedBack.reads_own_output {s t : State} {used src n k : Nat} (h : CopiedBack s t used src n)
    (hsrc : src < s.writePos.toNat) (hk : s.writePos.toNat + k < t.writePos.toNat) :
    t.outByte (s.writePos.toNat + k) = t.outByte (src + k) := by
  have hwrote_some : t.writePos.toNat ≠ s.writePos.toNat := by omega
  unfold CopiedBack at h
  split at h
  · exact absurd h.writePos hwrote_some
  split at h
  · exact absurd h.writePos hwrote_some
  split at h
  · exact absurd h.writePos hwrote_some
  · have hcount := h.writePos
    exact h.reads_own_output hsrc (by omega)

/-- Settles O29: each of the three commands is a CopyBack from its own source. -/
theorem copiesReadTheirOwnOutput : Obligations.CopiesReadTheirOwnOutput := by
  unfold Obligations.CopiesReadTheirOwnOutput
  intro i src s t hready hsrc hcommand ht k hk
  have hcopied : ∃ u n, exec i s = .next u ∧ CopiedBack s u i.size src n := by
    rcases hcommand with ⟨count, dist, rfl, hat⟩ | ⟨count, dat, rfl, hat⟩ | ⟨n, dat, rfl, hat⟩ <;> rw [hat]
    · exact (exec_sbr hready).imp fun _ hu => ⟨_, hu⟩
    · exact (exec_mcp hready).imp fun _ hu => ⟨_, hu⟩
    · exact (exec_vcp hready).imp fun _ hu => ⟨_, hu⟩
  obtain ⟨u, n, hu, hcopied⟩ := hcopied
  cases hu.symm.trans ht
  exact hcopied.reads_own_output hsrc hk

/-! ### The frame of every command -/

/-- What a command can change of `s`: the two cursors, MODE, PHASE, REASON, and OUT between the old and the new
WRITE_POS, which does not go back (R51, R52, R119). -/
structure CommandFrame (s t : State) : Prop where
  rest : t = { s with
    outMem := t.outMem, inPos := t.inPos, writePos := t.writePos, mode := t.mode, phase := t.phase, reason := t.reason }
  writePos : s.writePos.toNat ≤ t.writePos.toNat
  untouched : ∀ a, a < s.writePos.toNat ∨ t.writePos.toNat ≤ a → t.outByte a = s.outByte a

theorem CommandFrame.refl (s : State) : CommandFrame s s := ⟨rfl, le_rfl, fun _ _ => rfl⟩

theorem CommandFrame.setMode {s t : State} (m : Mode) (h : CommandFrame s t) : CommandFrame s (setMode m t) :=
  ⟨congrArg (Machine.setMode m) h.rest, h.writePos, h.untouched⟩

theorem commandFrame_kept (s : State) : Kept (CommandFrame s) where
  consume n _ h := ⟨congrArg (consume n) h.rest, h.writePos, h.untouched⟩
  stop r _ h := ⟨congrArg (raiseStop r) h.rest, h.writePos, h.untouched⟩
  put v t hroom h := by
    have hnext := putState_writePos_toNat (v := v) hroom
    have hforward := h.writePos
    refine ⟨congrArg (putState v) h.rest, by omega, fun a ha => ?_⟩
    rw [putState_outByte_other (by omega), h.untouched a (by omega)]

theorem exec_commandFrame {i : Instr} {s t : State} (h : exec i s = .next t) : CommandFrame s t := by
  by_cases hi : i = .rel
  · subst hi
    cases h
    exact ((commandFrame_kept s).consume _ _ (.refl s)).setMode _
  · exact (commandFrame_kept s).exec hi (.refl s) h

/-- MODE is REL's alone to set (R119). -/
theorem exec_mode {i : Instr} {s t : State} (hi : i ≠ .rel) (h : exec i s = .next t) : t.mode = s.mode :=
  Kept.exec (P := fun u => u.mode = s.mode) ⟨fun _ _ h => h, fun _ _ _ h => h, fun _ _ h => h⟩ hi rfl h

/-- Settles O30: the frame is kept by the elementary effects of a command, in any state. -/
theorem everyCommandsFrame : Obligations.EveryCommandsFrame := by
  unfold Obligations.EveryCommandsFrame
  intro i s t h
  obtain ⟨hrest, hforward, huntouched⟩ := exec_commandFrame h
  have hinByte : ∀ a, t.inByte a = s.inByte a := fun a => by
    rw [hrest]
    rfl
  refine ⟨?_, hinByte, ?_, ?_, ?_, ?_, ?_, ?_, ?_, ?_, ?_, ?_, fun hi => exec_mode hi h, hforward, huntouched⟩
  all_goals rw [hrest]

/-! ### The host's load of IN -/

theorem hostWriteIn_quiet {a : Word} {v : Byte} {s : State} (h : s.phase ≠ .busy) :
    hostWriteIn a v s = { s with inMem := Memory.write .inStream s.inMem a.toNat v } := if_neg h

/-- Settles O45: the load is one write of IN in canonical form. -/
theorem hostLoadsIn : Obligations.HostLoadsIn := by
  unfold Obligations.HostLoadsIn
  intro a v s hquiet hwf
  refine ⟨_, congrArg Host.Outcome.next (hostWriteIn_quiet hquiet), ?_, fun b hb => ?_, Memory.wf_write _ _ hwf, rfl⟩
  · rw [inByte_write _ _ _ hwf, if_pos rfl]
  · rw [inByte_write _ _ _ hwf, if_neg hb.symm]

/-! ### Engines share nothing -/

/-- Everything a step of engine `k` can do to the platform: nothing when there is no engine `k`, else its own step. -/
theorem Platform.stepEngine_cases {k : Nat} {p q : Platform} (h : Platform.stepEngine k p = .next q) :
    (p[k]? = none ∧ q = p) ∨ ∃ s t, p[k]? = some s ∧ step s = .next t ∧ q = p.set k t := by
  unfold Platform.stepEngine at h
  split at h
  next hnone =>
    cases h
    exact .inl ⟨hnone, rfl⟩
  next s hs =>
    split at h
    next t ht =>
      cases h
      exact .inr ⟨s, t, hs, ht, rfl⟩
    next => cases h
    next => cases h

/-- An engine put in the place of one with its number leaves the platform's count and numbers. -/
theorem Platform.wf_set {k : Nat} {p : Platform} {s t : State} (h : p.wf) (hs : p[k]? = some s)
    (ht : t.engine = s.engine) : Platform.wf (p.set k t) := by
  obtain ⟨hlength, hnumber⟩ := h
  refine ⟨by rw [List.length_set, hlength], fun j u hu => ?_⟩
  rcases eq_or_ne k j with rfl | hj
  · rw [List.getElem?_set_self (List.getElem?_eq_some_iff.1 hs).1] at hu
    cases hu
    exact ht.trans (hnumber k s hs)
  · rw [List.getElem?_set_ne hj] at hu
    exact hnumber j u hu

/-- Settles O58: a step of the platform replaces one engine by the state its own step leaves. -/
theorem enginesIndependent : Obligations.EnginesIndependent := by
  unfold Obligations.EnginesIndependent
  intro k p q h
  rcases Platform.stepEngine_cases h with ⟨hnone, rfl⟩ | ⟨s, t, hs, ht, rfl⟩
  · exact ⟨id, fun _ _ => rfl, fun s hs => by simp [hnone] at hs⟩
  · refine ⟨fun hwf => Platform.wf_set hwf hs (step_engine ht), fun j hj => List.getElem?_set_ne hj.symm, ?_⟩
    intro s' hs'
    cases hs.symm.trans hs'
    exact ⟨t, ht, List.getElem?_set_self (List.getElem?_eq_some_iff.1 hs).1⟩

end Sys2Proof.Machine
end

section
/-!
PROOFS. What the decoder reads, as rows of the two opcode maps (30_encoding.md R70 to R84): encoding and decoding are
inverse, every byte begins a command, and the first byte fixes a command's length.
-/

namespace Sys2Proof

/-! ### The rows of the opcode maps -/

/-- At position `index` of IN, the first byte `op` and the operand bytes of decoder `d` stand for the command `i`: the
rows of R72 and R80 with the fields of R74 to R83. -/
inductive OpcodeRow (index : Nat) : (d : Decoder) → (op : Byte) → (operands : List Byte) → (i : Instr) → Prop
  | rel (hindex : index = 0) : OpcodeRow index .copyCode 0x00#8 [] .rel
  | sbr {op b : Byte} (hrel : ¬(index = 0 ∧ op = 0x00#8)) (hop : op.toNat < 0x80) :
      OpcodeRow index .copyCode op [b] (.sbr (op.toNat / 16 + 3) (sbrDist op b))
  | endMark : OpcodeRow index .copyCode 0x80#8 [] .endMark
  | lit {op : Byte} (hlo : 0x80 < op.toNat) (hhi : op.toNat < 0xC0) :
      OpcodeRow index .copyCode op [] (.lit (op.toNat - 0x80))
  | mcp {op lo hi : Byte} (hlo : 0xC0 ≤ op.toNat) (hhi : op.toNat < 0xFE) :
      OpcodeRow index .copyCode op [lo, hi] (.mcp (op.toNat - 0xC0 + 3) (wordLE lo hi))
  | fill {lo hi v : Byte} : OpcodeRow index .copyCode 0xFE#8 [lo, hi, v] (.fill (wordLE lo hi) v)
  | vcp {nlo nhi dlo dhi : Byte} :
      OpcodeRow index .copyCode 0xFF#8 [nlo, nhi, dlo, dhi] (.vcp (wordLE nlo nhi) (wordLE dlo dhi))
  | rlit {k : Byte} (hlo : 0 < k.toNat) (hhi : k.toNat < 0x80) : OpcodeRow index .runLength k [] (.rlit k.toNat)
  | rrep {k v : Byte} (hk : 0x80 ≤ k.toNat) : OpcodeRow index .runLength k [v] (.rrep (256 - k.toNat) v)
  | rxt {hi lo v : Byte} : OpcodeRow index .runLength 0x00#8 [hi, lo, v] (.rxt (wordBE hi lo) v)

theorem sbrCount_of_lt {op : Byte} (hop : op.toNat < 0x80) : sbrCount op = op.toNat / 16 + 3 := by
  rw [sbrCount_eq]; omega

/-- The decoder reads every row. -/
theorem OpcodeRow.decode_eq {index : Nat} {d : Decoder} {op : Byte} {operands : List Byte} {i : Instr}
    (h : OpcodeRow index d op operands i) (rest : List Byte) :
    decode d index (op :: operands ++ rest) = .ok (i, rest) := by
  cases h with
  | rel hindex => subst hindex; rfl
  | sbr hrel hop => rw [← sbrCount_of_lt hop]; exact decode_sbr_row hrel hop
  | endMark => exact decode_endMark_row
  | lit hlo hhi => exact decode_lit_row hlo hhi
  | mcp hlo hhi => exact decode_mcp_row hlo hhi
  | fill => exact decode_fill_row
  | vcp => exact decode_vcp_row
  | rlit hlo hhi => exact decode_rlit_row hlo hhi
  | rrep hk => exact decode_rrep_row hk
  | rxt => exact decode_rxt_row

theorem decodeCopyCode_row {index : Nat} {op : Byte} {bytes rest : List Byte} {i : Instr}
    (h : decodeCopyCode index (op :: bytes) = .ok (i, rest)) :
    ∃ operands, bytes = operands ++ rest ∧ OpcodeRow index .copyCode op operands i := by
  simp only [decodeCopyCode, bit7_clear_iff, bit6_clear_iff, lowSix_eq] at h
  split at h
  next hrel =>
    obtain ⟨hindex, rfl⟩ := hrel
    cases h
    exact ⟨[], rfl, .rel hindex⟩
  next hrel =>
  split at h
  next hop =>
    rw [sbrCount_of_lt hop] at h
    split at h <;> cases h
    exact ⟨[_], rfl, .sbr hrel hop⟩
  next hop =>
  split at h
  next h6 =>
    split at h
    next hsix =>
      obtain rfl : op = 0x80#8 := BitVec.eq_of_toNat_eq (show op.toNat = 128 by omega)
      cases h
      exact ⟨[], rfl, .endMark⟩
    next hsix =>
      rw [show op.toNat % 64 = op.toNat - 0x80 by omega] at h
      cases h
      exact ⟨[], rfl, .lit (by omega) (by omega)⟩
  next h6 =>
  split at h
  next hlt =>
    rw [show op.toNat % 64 = op.toNat - 0xC0 by omega] at h
    split at h <;> cases h
    exact ⟨[_, _], rfl, .mcp (by omega) (by omega)⟩
  next hge =>
  split at h
  next hsix =>
    obtain rfl : op = 0xFE#8 := BitVec.eq_of_toNat_eq (show op.toNat = 254 by omega)
    split at h <;> cases h
    exact ⟨[_, _, _], rfl, .fill⟩
  next hsix =>
    obtain rfl : op = 0xFF#8 := BitVec.eq_of_toNat_eq (show op.toNat = 255 by omega)
    split at h <;> cases h
    exact ⟨[_, _, _, _], rfl, .vcp⟩

theorem decodeRunLength_row {index : Nat} {k : Byte} {bytes rest : List Byte} {i : Instr}
    (h : decodeRunLength (k :: bytes) = .ok (i, rest)) :
    ∃ operands, bytes = operands ++ rest ∧ OpcodeRow index .runLength k operands i := by
  have hint := toInt_eq_sext8 k
  simp only [decodeRunLength] at h
  split at h
  next hpos =>
    have hk : k.toNat < 0x80 := by split at hint <;> omega
    rw [if_pos hk] at hint
    rw [hint, Int.toNat_natCast] at h
    cases h
    exact ⟨[], rfl, .rlit (by omega) hk⟩
  next hpos =>
  split at h
  next hneg =>
    have hk : 0x80 ≤ k.toNat := by split at hint <;> omega
    rw [rrepCount_eq hk] at h
    split at h <;> cases h
    exact ⟨[_], rfl, .rrep hk⟩
  next hneg =>
    obtain rfl : k = 0x00#8 := BitVec.eq_of_toNat_eq (show k.toNat = 0 by split at hint <;> omega)
    split at h <;> cases h
    exact ⟨[_, _, _], rfl, .rxt⟩

/-- What the decoder answers is a row of the selected opcode map, read from the first byte and its operand bytes. -/
theorem decode_row {d : Decoder} {index : Nat} {op : Byte} {bytes rest : List Byte} {i : Instr}
    (h : decode d index (op :: bytes) = .ok (i, rest)) :
    ∃ operands, bytes = operands ++ rest ∧ OpcodeRow index d op operands i := by
  cases d with
  | none => cases h
  | copyCode => exact decodeCopyCode_row h
  | runLength => exact decodeRunLength_row h

theorem decode_nil_ne_ok (d : Decoder) (index : Nat) (read : Instr × List Byte) :
    decode d index [] ≠ .ok read := by
  cases d <;> exact fun h => nomatch h

/-! ### A row is what the command encodes to -/

theorem toByte_eq {n : Nat} {b : Byte} (h : n % 256 = b.toNat) : toByte n = b :=
  BitVec.eq_of_toNat_eq (by rw [toByte_toNat, h])

theorem toByte_wordLE_low (lo hi : Byte) : toByte ((wordLE lo hi).toNat % 256) = lo :=
  toByte_eq (by rw [wordLE_toNat]; omega)

theorem toByte_wordLE_high (lo hi : Byte) : toByte ((wordLE lo hi).toNat / 256) = hi :=
  toByte_eq (by rw [wordLE_toNat]; omega)

theorem toByte_wordBE_high (hi lo : Byte) : toByte ((wordBE hi lo).toNat / 256) = hi :=
  toByte_wordLE_high lo hi

theorem toByte_wordBE_low (hi lo : Byte) : toByte ((wordBE hi lo).toNat % 256) = lo :=
  toByte_wordLE_low lo hi

theorem toByte_sbrDist_low (op b : Byte) : toByte ((sbrDist op b).toNat % 256) = b :=
  toByte_eq (by rw [sbrDist_toNat]; omega)

/-- SBR's count and the high bits of its distance make its first byte (R86). -/
theorem toByte_sbr_opcode {op b : Byte} (hop : op.toNat < 0x80) :
    toByte ((op.toNat / 16 + 3 - 3) * 16 + (sbrDist op b).toNat / 256) = op :=
  toByte_eq (by rw [sbrDist_toNat]; omega)

section
variable {index : Nat} {d : Decoder} {op : Byte} {operands : List Byte} {i : Instr}

theorem OpcodeRow.encode_eq (h : OpcodeRow index d op operands i) : encode i = op :: operands := by
  cases h with
  | rel | endMark => rfl
  | sbr hrel hop => rw [encode, toByte_sbr_opcode hop, toByte_sbrDist_low]
  | lit hlo hhi =>
    have hfirst : toByte (0x80 + (op.toNat - 0x80)) = op := toByte_eq (by omega)
    rw [encode, hfirst]
  | mcp hlo hhi =>
    have hfirst : toByte (0xC0 + (op.toNat - 0xC0 + 3 - 3)) = op := toByte_eq (by omega)
    rw [encode, hfirst, toByte_wordLE_low, toByte_wordLE_high]
  | fill => rw [encode, toByte_wordLE_low, toByte_wordLE_high]
  | vcp => rw [encode, toByte_wordLE_low, toByte_wordLE_high, toByte_wordLE_low, toByte_wordLE_high]
  | rlit hlo hhi =>
    have hfirst : toByte op.toNat = op := toByte_eq (by omega)
    rw [encode, hfirst]
  | rrep hk =>
    have hfirst : toByte ((256 - (256 - op.toNat)) % 256) = op := toByte_eq (by omega)
    rw [encode, hfirst]
  | rxt => rw [encode, toByte_wordBE_high, toByte_wordBE_low]

theorem OpcodeRow.wellFormed (h : OpcodeRow index d op operands i) : i.wellFormed = true := by
  cases h with
  | rel | endMark | fill | vcp | rxt => rfl
  | sbr | lit | mcp | rlit | rrep =>
    simp only [Instr.wellFormed, Bool.and_eq_true, decide_eq_true_eq]
    omega

theorem OpcodeRow.decoder_eq (h : OpcodeRow index d op operands i) : i.decoder = d := by
  cases h <;> rfl

/-- The only row of the byte 0x00 at index 0 of a CCD job is REL's (R73). -/
theorem OpcodeRow.not_rel (h : OpcodeRow index d op operands i) (hi : i ≠ .rel) :
    ¬(index = 0 ∧ d = .copyCode ∧ op = 0x00#8) := by
  rintro ⟨hindex, rfl, rfl⟩
  cases h with
  | rel => exact hi rfl
  | sbr hrel hop => exact hrel ⟨hindex, rfl⟩
  | lit hlo hhi => exact absurd hlo (by decide)
  | mcp hlo hhi => exact absurd hlo (by decide)

theorem placeable_rel_iff : Instr.rel.placeable index = true ↔ index = 0 := by simp [Instr.placeable]

/-- Where a command other than REL can stand (R86). -/
theorem placeable_iff (hi : i ≠ .rel) :
    i.placeable index = true ↔ ¬(index = 0 ∧ i.decoder = .copyCode ∧ (encode i).head? = some 0x00#8) := by
  simp [Instr.placeable, hi, imp_iff_not_or, or_assoc]

theorem OpcodeRow.placeable (h : OpcodeRow index d op operands i) : i.placeable index = true := by
  by_cases hi : i = .rel
  · subst hi
    cases h with
    | rel hindex => exact placeable_rel_iff.2 hindex
  · rw [placeable_iff hi, h.encode_eq, h.decoder_eq, List.head?_cons, Option.some_inj]
    exact h.not_rel hi

end

/-- Settles O4: `decode_encode`. -/
theorem decodeOfEncode : Obligations.DecodeOfEncode := by
  unfold Obligations.DecodeOfEncode
  exact fun i index rest hwf hplace => decode_encode rest hwf hplace

/-- Settles O5: what is read is a row, and a row is what its command encodes to. -/
theorem encodeOfDecode : Obligations.EncodeOfDecode := by
  unfold Obligations.EncodeOfDecode
  intro d index bytes rest i h
  cases bytes with
  | nil => exact absurd h (decode_nil_ne_ok d index _)
  | cons op bytes =>
    obtain ⟨operands, rfl, hrow⟩ := decode_row h
    exact ⟨by rw [hrow.encode_eq, List.cons_append], hrow.wellFormed, hrow.decoder_eq, hrow.placeable⟩

/-! ### The rows cover every first byte (R72, R80) -/

/-- Whatever the first byte, four bytes after it hold the operands of a row. -/
theorem exists_row {d : Decoder} (hd : d ≠ .none) (index : Nat) (op b1 b2 b3 b4 : Byte) :
    ∃ operands more i, [b1, b2, b3, b4] = operands ++ more ∧ OpcodeRow index d op operands i := by
  cases d with
  | none => exact absurd rfl hd
  | copyCode =>
    by_cases hrel : index = 0 ∧ op = 0x00#8
    · obtain ⟨hindex, rfl⟩ := hrel
      exact ⟨[], _, _, rfl, .rel hindex⟩
    have hrange : op.toNat < 0x80 ∨ op.toNat = 0x80 ∨ (0x80 < op.toNat ∧ op.toNat < 0xC0) ∨
        (0xC0 ≤ op.toNat ∧ op.toNat < 0xFE) ∨ op.toNat = 0xFE ∨ op.toNat = 0xFF := by omega
    rcases hrange with hop | hop | ⟨hlo, hhi⟩ | ⟨hlo, hhi⟩ | hop | hop
    · exact ⟨[b1], _, _, rfl, .sbr hrel hop⟩
    · obtain rfl : op = 0x80#8 := BitVec.eq_of_toNat_eq hop
      exact ⟨[], _, _, rfl, .endMark⟩
    · exact ⟨[], _, _, rfl, .lit hlo hhi⟩
    · exact ⟨[b1, b2], _, _, rfl, .mcp hlo hhi⟩
    · obtain rfl : op = 0xFE#8 := BitVec.eq_of_toNat_eq hop
      exact ⟨[b1, b2, b3], _, _, rfl, .fill⟩
    · obtain rfl : op = 0xFF#8 := BitVec.eq_of_toNat_eq hop
      exact ⟨[b1, b2, b3, b4], _, _, rfl, .vcp⟩
  | runLength =>
    have hrange : op.toNat = 0x00 ∨ (0 < op.toNat ∧ op.toNat < 0x80) ∨ 0x80 ≤ op.toNat := by omega
    rcases hrange with hop | ⟨hlo, hhi⟩ | hop
    · obtain rfl : op = 0x00#8 := BitVec.eq_of_toNat_eq hop
      exact ⟨[b1, b2, b3], _, _, rfl, .rxt⟩
    · exact ⟨[], _, _, rfl, .rlit hlo hhi⟩
    · exact ⟨[b1], _, _, rfl, .rrep hop⟩

/-- After a first byte the only rejection is for missing operand bytes (R84). -/
theorem decode_error_truncated {d : Decoder} {index : Nat} {op : Byte} {rest : List Byte} {e : Reject}
    (hd : d ≠ .none) (h : decode d index (op :: rest) = .error e) : e = .truncated := by
  cases d with
  | none => exact absurd rfl hd
  | copyCode =>
    simp only [decode, decodeCopyCode] at h
    repeat' split at h
    all_goals cases h <;> rfl
  | runLength =>
    simp only [decode, decodeRunLength] at h
    repeat' split at h
    all_goals cases h <;> rfl

/-- Settles O6: enough bytes hold a row, and every rejection is a truncation. -/
theorem everyByteIsACommand : Obligations.EveryByteIsACommand := by
  unfold Obligations.EveryByteIsACommand
  intro d index op rest hd
  constructor
  · intro hlong
    match rest, hlong with
    | b1 :: b2 :: b3 :: b4 :: rest, _ =>
      obtain ⟨operands, more, i, hsplit, hrow⟩ := exists_row hd index op b1 b2 b3 b4
      refine ⟨i, more ++ rest, ?_⟩
      calc decode d index (op :: ([b1, b2, b3, b4] ++ rest))
          = decode d index (op :: operands ++ (more ++ rest)) := by rw [hsplit, List.append_assoc]; rfl
        _ = .ok (i, more ++ rest) := hrow.decode_eq _
  · cases h : decode d index (op :: rest) with
    | ok read => exact .inl ⟨read.1, read.2, rfl⟩
    | error e => exact .inr (by rw [decode_error_truncated hd h])

/-! ### The first byte fixes the length (R70) -/

/-- The size and the count of literals of the commands that begin with `op` (R71), from `op` alone. -/
def lengthsOf (d : Decoder) (index : Nat) (op : Byte) : Nat × Nat :=
  match d with
  | .none => (0, 0)
  | .copyCode =>
    if index = 0 ∧ op = 0x00#8 then (1, 0)
    else if op.toNat < 0x80 then (2, 0)
    else if op.toNat < 0xC0 then (1, op.toNat - 0x80)
    else if op.toNat < 0xFE then (3, 0)
    else if op.toNat = 0xFE then (4, 0)
    else (5, 0)
  | .runLength =>
    if op.toNat = 0x00 then (4, 0)
    else if op.toNat < 0x80 then (1, op.toNat)
    else (2, 0)

theorem OpcodeRow.lengths {index : Nat} {d : Decoder} {op : Byte} {operands : List Byte} {i : Instr}
    (h : OpcodeRow index d op operands i) : lengthsOf d index op = (i.size, i.literals) := by
  cases h with
  | rel hindex => subst hindex; rfl
  | sbr hrel hop => rw [lengthsOf, if_neg hrel, if_pos hop]; rfl
  | endMark | fill | vcp => rw [lengthsOf, if_neg (ne_rel_of_toNat_pos (by decide))]; rfl
  | lit hlo hhi =>
    rw [lengthsOf, if_neg (ne_rel_of_toNat_pos (by omega)), if_neg (by omega), if_pos hhi]; rfl
  | mcp hlo hhi =>
    rw [lengthsOf, if_neg (ne_rel_of_toNat_pos (by omega)), if_neg (by omega), if_neg (by omega), if_pos hhi]; rfl
  | rlit hlo hhi => rw [lengthsOf, if_neg (by omega), if_pos hhi]; rfl
  | rrep hk => rw [lengthsOf, if_neg (by omega), if_neg (by omega)]; rfl
  | rxt => rfl

theorem decode_lengths {d : Decoder} {index : Nat} {op : Byte} {bytes rest : List Byte} {i : Instr}
    (h : decode d index (op :: bytes) = .ok (i, rest)) : lengthsOf d index op = (i.size, i.literals) := by
  obtain ⟨operands, -, hrow⟩ := decode_row h
  exact hrow.lengths

/-- Settles O7: both commands have the lengths that the first byte gives. -/
theorem firstByteFixesLength : Obligations.FirstByteFixesLength := by
  unfold Obligations.FirstByteFixesLength
  intro d index op xs ys xs' ys' i j hi hj
  obtain ⟨hsize, hliterals⟩ := Prod.mk.inj ((decode_lengths hi).symm.trans (decode_lengths hj))
  exact ⟨hsize, hliterals, by rw [Instr.fullLength, Instr.fullLength, hsize, hliterals]⟩

/-! ### The maps as numbers -/

/-- Settles O8: each clause is a row of the CCD's map. -/
theorem copyCodeFormats : Obligations.CopyCodeFormats := by
  unfold Obligations.CopyCodeFormats
  intro index op b1 b2 b3 b4 rest hrel
  refine ⟨fun hop => ⟨_, sbrDist_toNat op b1, (OpcodeRow.sbr hrel hop).decode_eq rest⟩, fun hop => ?_,
    fun ⟨hlo, hhi⟩ => (OpcodeRow.lit (by omega) (by omega)).decode_eq rest,
    fun ⟨hlo, hhi⟩ => ⟨_, wordLE_toNat b1 b2, (OpcodeRow.mcp hlo (by omega)).decode_eq rest⟩,
    fun hop => ?_, fun hop => ?_⟩
  · obtain rfl : op = 0x80#8 := BitVec.eq_of_toNat_eq hop
    exact OpcodeRow.endMark.decode_eq rest
  · obtain rfl : op = 0xFE#8 := BitVec.eq_of_toNat_eq hop
    exact ⟨_, wordLE_toNat b1 b2, OpcodeRow.fill.decode_eq rest⟩
  · obtain rfl : op = 0xFF#8 := BitVec.eq_of_toNat_eq hop
    exact ⟨_, _, wordLE_toNat b1 b2, wordLE_toNat b3 b4, OpcodeRow.vcp.decode_eq rest⟩

/-- Settles O9: each clause is a row of the RLD's map. -/
theorem runLengthFormats : Obligations.RunLengthFormats := by
  unfold Obligations.RunLengthFormats
  intro index k b1 b2 b3 rest
  refine ⟨fun ⟨hlo, hhi⟩ => (OpcodeRow.rlit hlo (by omega)).decode_eq rest,
    fun hk => (OpcodeRow.rrep hk).decode_eq rest, fun hk => ?_⟩
  obtain rfl : k = 0x00#8 := BitVec.eq_of_toNat_eq hk
  exact ⟨_, wordBE_toNat b1 b2, OpcodeRow.rxt.decode_eq rest⟩

/-- Settles O10: `decode_rel`, and the row of REL. -/
theorem relPrefixPosition : Obligations.RelPrefixPosition := by
  unfold Obligations.RelPrefixPosition
  intro d index bytes rest
  constructor
  · exact Machine.decode_rel
  · rintro ⟨rfl, hindex, rfl⟩
    exact (OpcodeRow.rel hindex).decode_eq rest

end Sys2Proof
end

section
/-!
PROOFS. The assembler (30_encoding.md R86): a command line is read back by the decoder, and a stream that begins with a
command other than REL is not read as REL.
-/

namespace Sys2Proof

/-- What the assembler has checked of a command line it accepts, and the bytes it makes of it (R86). -/
theorem assemble_cmd {d : Decoder} {index : Nat} {i : Instr} {literals bytes : List Byte}
    (h : (Line.cmd i literals).assemble d index = .ok bytes) :
    i.wellFormed = true ∧ literals.length = i.literals ∧ i.decoder = d ∧ i.placeable index = true ∧
      bytes = encode i ++ literals := by
  simp only [Line.assemble] at h
  split at h
  · cases h
  next hoperands =>
  split at h
  · cases h
  next hdecoder =>
  split at h
  · cases h
  split at h
  · cases h
  next hplace =>
  cases h
  simp only [Bool.or_eq_true, Bool.not_eq_true', decide_eq_true_eq, not_or, Bool.not_eq_false, ne_eq, not_not]
    at hoperands hdecoder hplace
  obtain ⟨hwf, hliterals⟩ := hoperands
  exact ⟨hwf, hliterals, hdecoder, hplace, rfl⟩

/-- A program that is accepted: its first line's bytes, then those of its other lines. -/
theorem assembleFrom_cons {d : Decoder} {index : Nat} {l : Line} {p : List Line} {bytes : List Byte}
    (h : assembleFrom d index (l :: p) = .ok bytes) :
    ∃ first more, l.assemble d index = .ok first ∧ assembleFrom d (index + first.length) p = .ok more ∧
      bytes = first ++ more := by
  simp only [assembleFrom] at h
  split at h
  · cases h
  next first hfirst =>
  split at h
  · cases h
  next more hmore =>
  cases h
  exact ⟨first, more, hfirst, hmore, rfl⟩

theorem encode_append_literals_length {i : Instr} {literals : List Byte} (h : literals.length = i.literals) :
    (encode i ++ literals).length = i.fullLength := by
  obtain ⟨hsize, -⟩ := encodeSize i
  rw [List.length_append, hsize, h, Instr.fullLength]

/-- Settles O11: the line's bytes are the encoding of a command that can stand there, with its literals. -/
theorem assembledLineIsReadBack : Obligations.AssembledLineIsReadBack := by
  unfold Obligations.AssembledLineIsReadBack
  intro d index i literals p bytes h
  obtain ⟨first, more, hline, hmore, rfl⟩ := assembleFrom_cons h
  obtain ⟨hwf, hliterals, rfl, hplace, rfl⟩ := assemble_cmd hline
  rw [encode_append_literals_length hliterals] at hmore
  refine ⟨more, ?_, hmore⟩
  rw [List.append_assoc]
  exact decode_encode _ hwf hplace

/-- Settles O12: the first byte of the stream is that of the command's encoding, which the assembler has checked. -/
theorem absoluteStreamNeverReadsAsRel : Obligations.AbsoluteStreamNeverReadsAsRel := by
  unfold Obligations.AbsoluteStreamNeverReadsAsRel
  intro i literals p bytes hi h
  obtain ⟨first, more, hline, -, rfl⟩ := assembleFrom_cons h
  obtain ⟨-, -, hdecoder, hplace, rfl⟩ := assemble_cmd hline
  have hne : encode i ≠ [] := by
    obtain ⟨hsize, hone, -⟩ := encodeSize i
    exact List.ne_nil_of_length_pos (by omega)
  rw [List.append_assoc, List.head?_append_of_ne_nil _ hne]
  exact fun hzero => (placeable_iff hi).1 hplace ⟨rfl, hdecoder, hzero⟩

end Sys2Proof
end

section
/-!
PROOFS. The Copy-Code Decoder (40_copy_code.md): its step against CCD_Step, the shared primitives, the result of each
command, and what MODE changes.
-/

namespace Sys2Proof.Machine

/-- Settles O36: `step_eq_ccdStep`, and a run that returns leaves PHASE where it was, at BUSY. -/
theorem ccdStepIsPseudocode : Obligations.CcdStepIsPseudocode := by
  unfold Obligations.CcdStepIsPseudocode
  intro s hs hd hprefix
  refine ⟨step_eq_ccdStep hs hd hprefix, fun t ht => ?_⟩
  have hend := ccdStep_endsIn s
  rw [ht] at hend
  exact Eq.trans hend hs.1

/-! ### The shared primitives -/

/-- Settles O14: the two branches of Fetch8. -/
theorem fetch8Effect : Obligations.Fetch8Effect := by
  unfold Obligations.Fetch8Effect
  exact fun s => ⟨fetch8_end, fun h => ⟨consume 1 s, fetch8_byte h, consume_inPos_toNat h, rfl⟩⟩

theorem sees_two {s : State} (h : s.inPos.toNat + 2 ≤ s.inLen.toNat) :
    Sees 2 [s.inByte s.inPos.toNat, s.inByte (s.inPos.toNat + 1)] s := by
  rw [Sees, bytesFrom_succ (by omega), bytesFrom_succ (by omega), bytesFrom]

/-- Consuming all that IN still holds leaves IN_POS at IN_LEN. -/
theorem consume_ahead {s : State} (h : s.inPos.toNat ≤ s.inLen.toNat) :
    consume (s.ahead 0) s = { s with inPos := s.inLen } := by
  have hpos : (consume (s.ahead 0) s).inPos = s.inLen := by
    apply BitVec.eq_of_toNat_eq
    rw [consume_inPos_toNat] <;> simp only [State.ahead] <;> omega
  exact congrArg (fun pos => { s with inPos := pos }) hpos

/-- Settles O15: the two bytes are a window of the stream, and a shorter window is all that IN still holds. -/
theorem littleEndianFetch : Obligations.LittleEndianFetch := by
  unfold Obligations.LittleEndianFetch
  intro s hs
  constructor
  · intro h
    have hfetch := (fetch16LE_sees (sees_two h)).1
    rw [wordLE_toNat] at hfetch
    exact ⟨consume 2 s, hfetch, consume_inPos_toNat h, rfl⟩
  · intro h
    have hlen : (bytesFrom s 2 s.inPos.toNat).length = s.ahead 0 := by
      rw [bytesFrom_length, State.ahead]
      omega
    rw [fetch16LE_cut (k := 0) (by rw [hlen, State.ahead]; omega) rfl, hlen, consume_ahead hs]

theorem State.OutReady.full {s : State} (hs : s.OutReady) (h : s.room = 0) : s.writePos = s.targetSize := by
  have hle := hs.2
  rw [State.room] at h
  exact BitVec.eq_of_toNat_eq (by omega)

theorem putState_wrote {v : Byte} {s : State} (hs : s.OutReady) (h : s.writePos.toNat < s.targetSize.toNat) :
    Wrote s (putState v s) 0 1 (fun _ => v) none :=
  (Wrote.put hs h (Wrote.refl (putState v s) fun _ => v)).congr fun _ _ => ite_self v

/-- Settles O17: a full OUT, or a byte put below TARGET_SIZE. -/
theorem putEffect : Obligations.PutEffect := by
  unfold Obligations.PutEffect
  refine fun v s hs => ⟨fun h => put_full (hs.full h), fun h => ?_⟩
  have hlt : s.writePos.toNat < s.targetSize.toNat := Nat.lt_of_sub_pos h
  exact ⟨putState v s, put_room hlt, putState_wrote hs hlt, putState_OutReady hs hlt⟩

/-- Resolve in the words of R107. -/
theorem resolve_eq_ite (dat : Half) (s : State) :
    resolve dat s = if s.mode = .relative then (s.writePos.toNat : Int) - dat.toNat else dat.toNat :=
  (resolveWord_eq_resolve dat s).symm

/-- Settles O18: Resolve is the pseudocode's, read in each mode. -/
theorem resolveSource : Obligations.ResolveSource := by
  unfold Obligations.ResolveSource
  refine fun dat s => ⟨(resolveWord_eq_resolve dat s).symm, fun hm => ?_, fun hm => ?_⟩
  · rw [resolve_eq_ite, if_pos hm]
    omega
  · rw [resolve_eq_ite, if_neg (by simp [hm])]

/-! ### The result of each command -/

/-- Settles O19: the state after REL, its cursor read without wrapping. -/
theorem relSelectsRelative : Obligations.RelSelectsRelative := by
  unfold Obligations.RelSelectsRelative
  exact fun s h => ⟨setMode .relative (consume 1 s), rfl, rfl, consume_inPos_toNat h, rfl⟩

/-- Settles O22: END's effect, and OUT is untouched as a whole. -/
theorem endMarkStops : Obligations.EndMarkStops := by
  unfold Obligations.EndMarkStops
  intro s h
  obtain ⟨t, ht, hwrote⟩ := exec_endMark h
  refine ⟨t, ht, hwrote, ?_⟩
  cases ht
  rfl

/-- Where bytes are asked for and OUT takes some, CopyBack stops with BAD_REFERENCE exactly at a source that is not an
already written position (R106, R187). -/
theorem CopiedBack.badReference_iff {s t : State} {used n : Nat} {src : Int} (h : CopiedBack s t used src n)
    (hn : n ≠ 0) (hroom : s.room ≠ 0) (hreason : s.reason ≠ .badReference) :
    t.reason = .badReference ↔ src < 0 ∨ (s.writePos.toNat : Int) ≤ src := by
  unfold CopiedBack at h
  rw [if_neg hn, if_neg hroom] at h
  split at h
  next hbad => exact iff_of_true h.ended.2 hbad
  next hgood =>
    refine iff_of_false ?_ hgood
    have hended := h.ended
    split at hended
    · rw [hended.2]
      exact hreason
    · rw [hended.2]
      decide

/-- Settles O20: CopyBack's result, whose bad sources are the distance 0 and those that reach before OUT. -/
theorem sbrCopiesBack : Obligations.SbrCopiesBack := by
  unfold Obligations.SbrCopiesBack
  intro count dist s h
  obtain ⟨t, ht, hcopied⟩ := exec_sbr (count := count) (dist := dist) h
  refine ⟨t, ht, hcopied, fun hcount hroom hreason => ?_⟩
  have hzero : dist = 0 ↔ dist.toNat = 0 := BitVec.toNat_eq
  rw [hcopied.badReference_iff hcount hroom hreason, distanceSource, hzero]
  omega

/-- Settles O21, by CopyLiteral's result. -/
theorem litCopies : Obligations.LitCopies := fun _ _ h => exec_lit h

/-- Settles O23: CopyBack's result, its source in the words of R107. -/
theorem mcpCopiesBack : Obligations.McpCopiesBack := by
  unfold Obligations.McpCopiesBack
  intro count dat s h
  rw [← resolve_eq_ite]
  exact exec_mcp h

/-- Settles O24, by FillBytes's result. -/
theorem fillWrites : Obligations.FillWrites := fun _ _ _ h => exec_fill h

/-- Settles O25: CopyBack's result, its source in the words of R107. -/
theorem vcpCopiesBack : Obligations.VcpCopiesBack := by
  unfold Obligations.VcpCopiesBack
  intro n dat s h
  rw [← resolve_eq_ite]
  exact exec_vcp h

/-! ### What MODE changes -/

/-- The same run, leaving its state in another mode. -/
def Run.inMode {α : Type} (m : Mode) : Run α → Run α
  | .ok a s => .ok a (setMode m s)
  | .stopped s => .stopped (setMode m s)
  | .faulted f => .faulted f

theorem Run.inMode_bind {α β : Type} {m : Mode} {r r' : Run α} {f : α → State → Run β} (hr : r' = r.inMode m)
    (hf : ∀ a s, f a (setMode m s) = (f a s).inMode m) : r'.bind f = (r.bind f).inMode m := by
  subst hr
  cases r with
  | ok a s => exact hf a s
  | stopped s => rfl
  | faulted f => rfl

theorem Run.inMode_outcome {m : Mode} {r r' : Run Unit} {t : State} (hr : r' = r.inMode m)
    (h : r.outcome = .next t) : r'.outcome = .next (setMode m t) := by
  subst hr
  cases r <;> cases h <;> rfl

theorem fetch8_setMode (m : Mode) (s : State) : fetch8 (setMode m s) = (fetch8 s).inMode m := by
  rw [fetch8, fetch8, apply_ite (Run.inMode m)]
  rfl

theorem memReadOut_setMode (m : Mode) (a : Nat) (s : State) :
    memReadOut a (setMode m s) = (memReadOut a s).inMode m := by
  rw [memReadOut, memReadOut, apply_ite (Run.inMode m)]
  rfl

theorem memWriteOut_setMode (m : Mode) (a : Nat) (v : Byte) (s : State) :
    memWriteOut a v (setMode m s) = (memWriteOut a v s).inMode m := by
  rw [memWriteOut, memWriteOut, apply_ite (Run.inMode m)]
  rfl

theorem put_setMode (m : Mode) (v : Byte) (s : State) : put v (setMode m s) = (put v s).inMode m := by
  rw [put, put, setMode_writePos, setMode_targetSize]
  split
  · rfl
  · exact Run.inMode_bind (memWriteOut_setMode m _ v s) fun _ _ => rfl

theorem fillBytes_setMode (m : Mode) (n : Nat) (v : Byte) (s : State) :
    fillBytes n v (setMode m s) = (fillBytes n v s).inMode m := by
  induction n generalizing s with
  | zero => rfl
  | succ n ih => exact Run.inMode_bind (put_setMode m v s) fun _ => ih

theorem copyLiteral_setMode (m : Mode) (n : Nat) (s : State) :
    copyLiteral n (setMode m s) = (copyLiteral n s).inMode m := by
  induction n generalizing s with
  | zero => rfl
  | succ n ih =>
    rw [copyLiteral, copyLiteral, setMode_writePos, setMode_targetSize]
    split
    · rfl
    · exact Run.inMode_bind (fetch8_setMode m s) fun v u => Run.inMode_bind (put_setMode m v u) fun _ => ih

theorem copyBack_setMode (m : Mode) (src : Int) (n : Nat) (s : State) :
    copyBack src n (setMode m s) = (copyBack src n s).inMode m := by
  induction n generalizing src s with
  | zero => rfl
  | succ n ih =>
    rw [copyBack, copyBack, setMode_writePos, setMode_targetSize]
    split
    · rfl
    split
    · rfl
    · exact Run.inMode_bind (memReadOut_setMode m _ s) fun v u => Run.inMode_bind (put_setMode m v u) fun _ => ih _

/-- Settles O31: consuming and the three copiers do the same in every mode, and SBR's source does not look at it. -/
theorem modeOnlyResolvesDat : Obligations.ModeOnlyResolvesDat := by
  unfold Obligations.ModeOnlyResolvesDat
  intro i m s t hrel hmcp hvcp h
  cases i with
  | rel => exact absurd rfl hrel
  | sbr count dist => exact Run.inMode_outcome (copyBack_setMode m _ count (consume 2 s)) h
  | lit count => exact Run.inMode_outcome (copyLiteral_setMode m count (consume 1 s)) h
  | endMark =>
    cases h
    rfl
  | mcp count dat => exact absurd rfl (hmcp count dat)
  | fill n v => exact Run.inMode_outcome (fillBytes_setMode m n.toNat v (consume 4 s)) h
  | vcp n dat => exact absurd rfl (hvcp n dat)
  | rlit count => exact Run.inMode_outcome (copyLiteral_setMode m count (consume 1 s)) h
  | rrep n v => exact Run.inMode_outcome (fillBytes_setMode m n v (consume 2 s)) h
  | rxt n v => exact Run.inMode_outcome (fillBytes_setMode m n.toNat v (consume 4 s)) h

end Sys2Proof.Machine
end

section
/-!
PROOFS. The Run-Length Decoder (41_run_length.md): its step against RLD_Step, Fetch16BE, the result of each command, and
the reasons with which its job can stop.
-/

namespace Sys2Proof.Machine

/-- Settles O37: `step_eq_rldStep`, and a run that returns leaves PHASE where it was, at BUSY. -/
theorem rldStepIsPseudocode : Obligations.RldStepIsPseudocode := by
  unfold Obligations.RldStepIsPseudocode
  refine fun s hs hd => ⟨step_eq_rldStep hs hd, fun t ht => ?_⟩
  have hend : Run.EndsIn s.phase (.ok () t) := ht ▸ rldStep_endsIn s
  exact Eq.trans hend hs.1

/-! ### Fetch16BE -/

/-- A window that IN cuts short is all that IN still holds. -/
theorem consume_cut_window {k : Nat} {s : State} (hs : s.inPos.toNat ≤ s.inLen.toNat)
    (h : s.inLen.toNat < s.inPos.toNat + k) :
    consume (bytesFrom s k s.inPos.toNat).length s = { s with inPos := s.inLen } := by
  have hlen : (bytesFrom s k s.inPos.toNat).length = s.ahead 0 := by
    rw [bytesFrom_length, State.ahead]
    omega
  rw [hlen, consume_ahead hs]

/-- Settles O16: the two bytes are a window of the stream, and a shorter window is all that IN still holds. -/
theorem bigEndianFetch : Obligations.BigEndianFetch := by
  unfold Obligations.BigEndianFetch
  intro s hs
  constructor
  · intro h
    have hfetch := (fetch16BE_sees (sees_two h)).1
    rw [wordBE_toNat] at hfetch
    exact ⟨consume 2 s, hfetch, consume_inPos_toNat h, rfl⟩
  · intro h
    have hshort : (bytesFrom s 2 s.inPos.toNat).length < 2 := by
      rw [bytesFrom_length]
      omega
    rw [fetch16BE_cut (k := 0) hshort rfl, consume_cut_window hs h]

/-! ### The result of each command -/

/-- Settles O26, by CopyLiteral's result. -/
theorem rlitCopies : Obligations.RlitCopies := fun _ _ h => exec_rlit h

/-- Settles O27, by FillBytes's result. -/
theorem rrepWrites : Obligations.RrepWrites := fun _ _ _ h => exec_rrep h

/-- Settles O28, by FillBytes's result. -/
theorem rxtWrites : Obligations.RxtWrites := fun _ _ _ h => exec_rxt h

/-! ### How an RLD job can stop -/

/-- Every state that the run leaves, by returning or by a Stop, satisfies `P`; a fault leaves none. -/
def Run.MayLeave {α : Type} (P : State → Prop) : Run α → Prop
  | .ok _ t => P t
  | .stopped t => P t
  | .faulted _ => True

theorem Run.MayLeave.bind {α β : Type} {P : State → Prop} {r : Run α} {f : α → State → Run β} (h : r.MayLeave P)
    (hf : ∀ a t, P t → (f a t).MayLeave P) : (r.bind f).MayLeave P := by
  cases r with
  | ok a t => exact hf a t h
  | stopped t => exact h
  | faulted f => trivial

theorem Run.MayLeave.of_outcome {P : State → Prop} {r : Run Unit} {t : State} (h : r.MayLeave P)
    (ht : r.outcome = .next t) : P t := by
  cases r <;> cases ht <;> exact h

/-- An RLD job in mode `m`: it runs without a reason, or it is DONE with one that an RLD job can give (R150). -/
def RunLengthJob (m : Mode) (t : State) : Prop :=
  t.mode = m ∧
    (t.phase = .busy ∧ t.reason = .none ∨
      t.phase = .done ∧ (t.reason = .outputExhausted ∨ t.reason = .inputEnd ∨ t.reason = .truncatedInput))

section
variable {m : Mode} {s : State}

theorem RunLengthJob.stop {r : Reason} (h : RunLengthJob m s)
    (hr : r = .outputExhausted ∨ r = .inputEnd ∨ r = .truncatedInput) : RunLengthJob m (raiseStop r s) :=
  ⟨h.1, .inr ⟨rfl, hr⟩⟩

theorem RunLengthJob.fetch8 (h : RunLengthJob m s) : (fetch8 s).MayLeave (RunLengthJob m) := by
  rcases Nat.lt_or_ge s.inPos.toNat s.inLen.toNat with hmore | hend
  · rw [fetch8_byte hmore]
    exact h
  · rw [fetch8_end hend]
    exact h.stop (by decide)

theorem RunLengthJob.put (v : Byte) (h : RunLengthJob m s) : (put v s).MayLeave (RunLengthJob m) := by
  rcases put_cases v s with e | e | e <;> rw [e]
  · exact h
  · exact h.stop (by decide)
  · trivial

theorem RunLengthJob.fillBytes (n : Nat) (v : Byte) (h : RunLengthJob m s) :
    (fillBytes n v s).MayLeave (RunLengthJob m) := by
  induction n generalizing s with
  | zero => exact h
  | succ n ih => exact (h.put v).bind fun _ _ => ih

theorem RunLengthJob.copyLiteral (n : Nat) (h : RunLengthJob m s) :
    (copyLiteral n s).MayLeave (RunLengthJob m) := by
  induction n generalizing s with
  | zero => exact h
  | succ n ih =>
    rw [Machine.copyLiteral]
    split
    · exact h.stop (by decide)
    · exact h.fetch8.bind fun v _ hread => (hread.put v).bind fun _ _ => ih

theorem RunLengthJob.fetch16BE (h : RunLengthJob m s) : (fetch16BE s).MayLeave (RunLengthJob m) :=
  h.fetch8.bind fun _ _ hhi => hhi.fetch8.bind fun _ _ hlo => hlo

theorem RunLengthJob.rldCommand (k : Byte) (h : RunLengthJob m s) : (rldCommand k s).MayLeave (RunLengthJob m) := by
  unfold Machine.rldCommand
  split
  · exact h.copyLiteral _
  split
  · exact h.fetch8.bind fun v _ hread => hread.fillBytes _ v
  · exact h.fetch16BE.bind fun n _ hcount => hcount.fetch8.bind fun v _ hread => hread.fillBytes n v

/-- A step of an RLD job raises the two Stops at its top and those of Fetch8, Put and CopyLiteral, and no other. -/
theorem RunLengthJob.rldStep (h : RunLengthJob m s) : (rldStep s).MayLeave (RunLengthJob m) := by
  rw [rldStep_eq]
  split
  · exact h.stop (by decide)
  split
  · exact h.stop (by decide)
  · exact h.fetch8.bind fun k _ hread => hread.rldCommand k

end

/-- Settles O56: the step is RLD_Step, and what it leaves is an RLD job still, in the same mode. -/
theorem runLengthReasons : Obligations.RunLengthReasons := by
  unfold Obligations.RunLengthReasons
  intro s t hs hd hreason ht
  have hjob : RunLengthJob s.mode s := ⟨rfl, .inl ⟨hs.1, hreason⟩⟩
  rw [step_eq_rldStep hs hd] at ht
  exact hjob.rldStep.of_outcome ht

end Sys2Proof.Machine
end

section
/-!
PROOFS. The stops (60_exceptions.md): no step faults, every job ends, a command cut short, the order of the checks at
the top of a step, UNSUPPORTED_FORMAT, and what leaves the engine as it is.
-/

namespace Sys2Proof.Machine

/-! ### The engine never faults (R180) -/

/-- A START within the capacities begins a job or ends it at once; beyond one it is refused (R40). -/
theorem start_answers (s : State) : (∃ t, start s = .next t) ∨ start s = .refused .startBeyondCapacity := by
  unfold start
  split
  · exact .inr rfl
  · cases Config.compressionTypeMap s.compType with
    | copyCode => exact .inl ⟨_, beginJob_copyCode s⟩
    | runLength => exact .inl ⟨_, beginJob_runLength s⟩
    | unsupported => exact .inl ⟨_, beginJob_unsupported s⟩

theorem State.Inv.engineStep_answers {s : State} (h : s.Inv) : ∃ t, Machine.engineStep s = .next t := by
  by_cases hb : s.phase = .busy
  · obtain ⟨t, ht, -⟩ := busyStep_advances h hb
    exact ⟨t, (engineStep_busy hb).trans ht⟩
  · exact ⟨s, engineStep_quiet hb⟩

theorem hostWriteReg_busy {r : HostReg} {v : Word} {s : State} (hb : s.phase = .busy) :
    hostWriteReg r v s = .next s := if_pos hb

/-- A register write answers a state, but for a write of CTRL while not BUSY that is a START beyond a capacity. -/
theorem hostWriteReg_answers (r : HostReg) (v : Word) (s : State) :
    (∃ t, hostWriteReg r v s = .next t) ∨
      (hostWriteReg r v s = .refused .startBeyondCapacity ∧ s.phase ≠ .busy ∧ r = .ctrl) := by
  by_cases hb : s.phase = .busy
  · exact .inl ⟨s, hostWriteReg_busy hb⟩
  · cases r with
    | ctrl =>
      rw [hostWriteReg_quiet_ctrl hb]
      split
      · exact (start_answers s).imp_right fun hrefused => ⟨hrefused, hb, rfl⟩
      · exact .inl ⟨s, rfl⟩
    | compType | inLen | targetSize | status | inPos | writePos => exact .inl ⟨_, if_neg hb⟩

/-- What the host does, or the engine's turn, answers a state, but for a START beyond a capacity. -/
theorem State.Inv.act_answers {s : State} (h : s.Inv) (e : HostEvent) :
    (∃ t, Machine.act e s = .next t) ∨
      (Machine.act e s = .refused .startBeyondCapacity ∧ s.phase ≠ .busy ∧ ∃ v, e = .writeReg .ctrl v) := by
  cases e with
  | engineTurn => exact .inl h.engineStep_answers
  | writeReg r v =>
    refine (hostWriteReg_answers r v s).imp_right ?_
    rintro ⟨hrefused, hb, rfl⟩
    exact ⟨hrefused, hb, v, rfl⟩
  | readReg r => exact .inl ⟨_, rfl⟩
  | writeIn index v => exact .inl ⟨_, rfl⟩
  | readOut index => exact .inl ⟨_, rfl⟩
  | reset => exact .inl ⟨_, rfl⟩

theorem step_hostEvent {s : State} {e : HostEvent} {rest : List HostEvent} (h : s.host = e :: rest) :
    step s = act e { s with host := rest } := by
  rw [step, turn, h]

/-- Settles O51: a step is the engine's, which answers a state under the invariant, or an action of the host. -/
theorem invariantExcludesFaults : Obligations.InvariantExcludesFaults := by
  unfold Obligations.InvariantExcludesFaults
  intro s h
  cases hhost : s.host with
  | nil =>
    rw [step_hostless hhost]
    exact .inl h.engineStep_answers
  | cons e rest =>
    rw [step_hostEvent hhost]
    refine ((h.withHost s.draws rest s.hostData).act_answers e).imp_right ?_
    rintro ⟨hrefused, hb, v, rfl⟩
    exact ⟨hrefused, hb, v, rest, rfl⟩

/-! ### Every job ends (R180) -/

/-- A running job's decoder has a step of the pseudocode that its machine steps are. -/
theorem State.Inv.stepsAs {s : State} (h : s.Inv) (hb : s.phase = .busy) :
    ∃ oneStep, StepsAs s.decoder oneStep := by
  obtain ⟨-, hd, -, -⟩ := h.busy hb
  cases hdec : s.decoder with
  | none => exact absurd hdec hd
  | copyCode => exact ⟨ccdStep, ccdStep_stepsAs⟩
  | runLength => exact ⟨rldStep, rldStep_stepsAs⟩

/-- Settles O53: the job's loop stops within one step more than the bytes that IN has left (`untilStop_is_run`, the
induction on that bound), and the machine's run of as many steps is at the same DONE state. -/
theorem everyJobEnds : Obligations.EveryJobEnds := by
  unfold Obligations.EveryJobEnds
  intro s h hs
  obtain ⟨oneStep, hstep⟩ := h.stepsAs hs.1
  obtain ⟨t, -, hdone, hrun⟩ := untilStop_is_run hstep (s.ahead 0 + 1) h hs rfl (Nat.lt_succ_self _)
  exact ⟨s.ahead 0 + 1, t, le_rfl, hrun, hdone⟩

/-! ### A command cut short in its operands (R101, R183) -/

/-- Fewer bytes than a command's size are no command, when the first is the one that the command begins with: that byte
fixes the size (R70). -/
theorem decode_short_ne_ok {index : Nat} {bytes rest : List Byte} {i j : Instr} (hwf : i.wellFormed = true)
    (hplace : i.placeable index = true) (hfirst : (encode i)[0]? = bytes[0]?) (hshort : bytes.length < i.size) :
    decode i.decoder index bytes ≠ .ok (j, rest) := by
  intro hj
  cases bytes with
  | nil => exact decode_nil_ne_ok _ _ _ hj
  | cons op more =>
    have hi : decode i.decoder index (encode i ++ []) = .ok (i, []) := decode_encode [] hwf hplace
    obtain ⟨operands, henc⟩ : ∃ operands, encode i = op :: operands :=
      List.head?_eq_some_iff.1 (List.head?_eq_getElem?.trans hfirst)
    rw [henc, List.cons_append] at hi
    obtain ⟨hsize, -⟩ := Prod.mk.inj ((decode_lengths hi).symm.trans (decode_lengths hj))
    have hlength := (decode_size hj).1
    omega

/-- Where IN cuts the window short, a command cut short consumes all that IN still holds. -/
theorem operandsCut_eq {s : State} (hcut : s.inLen.toNat < s.inPos.toNat + longestOperands) :
    operandsCut s = raiseStop .truncatedInput (consume (s.ahead 0) s) := by
  have hlen : (operandWindow s).length = s.ahead 0 := by
    rw [operandWindow_length, State.ahead]
    omega
  rw [operandsCut, hlen]

/-- Settles O35: the window is too short for the command that its first byte begins, so the step is `operandsCut`. -/
theorem operandTruncation : Obligations.OperandTruncation := by
  unfold Obligations.OperandTruncation
  intro s i hs hd hw hp hwf hdec hplace hcut hfirst
  obtain ⟨-, -, hlong, -⟩ := encodeSize i
  have hwindow : (operandWindow s).length < i.size := by rw [operandWindow_length]; omega
  have hhead : (operandWindow s)[0]? = some (s.inByte s.inPos.toNat) := bytesFrom_get s _ _ 0 (by decide) hp
  have hstep : step s = .next (operandsCut s) := by
    rw [step_running hs]
    rcases busyStep_cases s with ⟨hfull, -⟩ | ⟨-, hend, -⟩ | ⟨-, -, j, rest, hj, -⟩ | ⟨-, -, -, e⟩ | ⟨hnone, -⟩
    · exact absurd hfull hw
    · rw [hend] at hp
      exact absurd hp (lt_irrefl _)
    · rw [← hdec] at hj
      exact absurd hj (decode_short_ne_ok hwf hplace (hfirst.trans hhead.symm) hwindow)
    · exact e
    · exact absurd hnone hd
  rw [operandsCut_eq (by omega)] at hstep
  refine ⟨_, hstep, ?_, ?_, rfl⟩
  · exact (Wrote.stop _ .truncatedInput _).consumed (by rw [State.ahead]; omega)
  · rw [raiseStop_inPos, consume_ahead hp.le]

/-! ### The stops themselves -/

/-- Settles O13, by the laws of `raiseStop` in Laws/State.lean, one for each field. -/
theorem raiseStopEffect : Obligations.RaiseStopEffect := by
  unfold Obligations.RaiseStopEffect
  rintro r s t rfl
  simp

/-- Settles O34: the order of the two checks in `busyStep`. -/
theorem stepTopOrder : Obligations.StepTopOrder := by
  unfold Obligations.StepTopOrder
  intro s hs
  rw [step_running hs, busyStep]
  exact ⟨fun hfull => if_pos hfull, fun hroom hend => by rw [if_neg hroom, if_pos hend]⟩

theorem hostReadOut_noDecoder {a : Word} {s : State} (hd : s.decoder = .none) :
    hostReadOut a s = hostDraws 0xFF#32 s := if_neg fun hresult => hresult.2.1 hd

/-- Settles O39: the START leaves `unsupportedEnded`, and with no decoder OUT is no result. -/
theorem unsupportedFormatLeavesOut : Obligations.UnsupportedFormatLeavesOut := by
  unfold Obligations.UnsupportedFormatLeavesOut
  intro v s hb hv hin hout hkind
  have hstart : start s = .next (unsupportedEnded s) := by
    rw [start, if_neg (by omega), hkind, beginJob_unsupported]
  exact ⟨unsupportedEnded s, (act_start hb hv).trans hstart, rfl, rfl, rfl, rfl, rfl, rfl, rfl, rfl,
    fun a => hostReadOut_noDecoder rfl⟩

/-! ### What leaves the engine as it is -/

theorem hostWriteIn_busy {a : Word} {v : Byte} {s : State} (hb : s.phase = .busy) : hostWriteIn a v s = s := if_pos hb

/-- Settles O40: while BUSY both kinds of host write answer the state unchanged. -/
theorem busyIgnoresHostWrites : Obligations.BusyIgnoresHostWrites := by
  unfold Obligations.BusyIgnoresHostWrites
  exact fun s hb => ⟨fun r v => hostWriteReg_busy hb, fun a v => congrArg Host.Outcome.next (hostWriteIn_busy hb)⟩

/-- Settles O46: with nothing from the host a step is the engine's, which is quiet (R195). -/
theorem quietWhenNotBusy : Obligations.QuietWhenNotBusy := by
  unfold Obligations.QuietWhenNotBusy
  exact fun s hb hhost => (step_hostless hhost).trans (engineStep_quiet hb)

end Sys2Proof.Machine
end

section
/-!
PROOFS. Reset (70_reset_and_hazards.md R220, 10_state.md R41).
-/

namespace Sys2Proof.Machine

/-- IN holds the free value where nothing is listed: the counterpart of `outByte_of_not_listed`. -/
theorem inByte_of_not_listed {s : State} {a : Nat} (h : ∀ c ∈ s.inMem, c.1 ≠ a) :
    s.inByte a = Config.unwrittenIn s.engine s.resets a := by
  simp [State.inByte, Memory.read_of_not_listed h, Space.unlisted]

/-- Settles O2: reset answers `hostReset s`, whose registers are those of `State.reset` whatever `s` is (`resetValues`);
it lists no byte of IN and counts one reset more, so every byte of IN is the new count's free value. -/
theorem resetFromAnyState : Obligations.ResetFromAnyState := by
  unfold Obligations.ResetFromAnyState
  intro s
  have hin (a : Nat) : (hostReset s).inByte a = Config.unwrittenIn s.engine (s.resets + 1) a :=
    inByte_of_not_listed fun c hc => absurd hc List.not_mem_nil
  obtain ⟨hphase, hreason, hmode, hdecoder, hinPos, hwritePos, hcomp, hlen, hsize, -⟩ := resetValues
  exact ⟨hostReset s, rfl, hphase, hreason, hmode, hdecoder, hinPos, hwritePos, hcomp, hlen, hsize,
    rfl, rfl, rfl, hin, rfl, rfl, rfl, rfl⟩

end Sys2Proof.Machine
end

section
/-!
PROOFS. The cursors of a running job (10_state.md R38, R39; 40_copy_code.md R117), one word of each command
(30_encoding.md R74 to R83), and the order of the host's actions.
-/

namespace Sys2Proof

/-! ### How many bytes a command writes -/

/-- The bytes that a command writes when OUT takes them all and none of its checks stops it. -/
def Instr.outBytes : Instr → Nat
  | .rel | .endMark => 0
  | .sbr count _ | .lit count | .mcp count _ | .rlit count => count
  | .fill n _ | .vcp n _ | .rxt n _ => n.toNat
  | .rrep n _ => n

/-- No encoding counts further than 16 bits (R86). -/
theorem Instr.outBytes_le {i : Instr} (h : i.wellFormed = true) : i.outBytes ≤ 65535 := by
  cases i with
  | rel | endMark => exact Nat.zero_le _
  | fill n _ | vcp n _ | rxt n _ => exact Nat.le_of_lt_succ n.isLt
  | sbr | lit | mcp | rlit | rrep =>
    simp only [Instr.wellFormed, Bool.and_eq_true, decide_eq_true_eq] at h
    simp only [Instr.outBytes]
    omega

end Sys2Proof

namespace Sys2Proof.Machine

section
variable {s t : State} {used n : Nat}

theorem Filled.writePos_le {v : Byte} (h : Filled s t used n v) : t.writePos.toNat ≤ s.writePos.toNat + n :=
  h.writePos.trans_le (Nat.add_le_add_left (Nat.min_le_left _ _) _)

theorem CopiedLiteral.writePos_le (h : CopiedLiteral s t used n) : t.writePos.toNat ≤ s.writePos.toNat + n :=
  h.writePos.trans_le (Nat.add_le_add_left (Nat.min_le_left _ _) _)

theorem CopiedBack.writePos_le {src : Int} (h : CopiedBack s t used src n) :
    t.writePos.toNat ≤ s.writePos.toNat + n := by
  have hnothing : t.writePos.toNat = s.writePos.toNat + 0 → t.writePos.toNat ≤ s.writePos.toNat + n := by omega
  unfold CopiedBack at h
  split at h
  · exact hnothing h.writePos
  split at h
  · exact hnothing h.writePos
  split at h
  · exact hnothing h.writePos
  · exact h.writePos.trans_le (Nat.add_le_add_left (Nat.min_le_left _ _) _)

end

/-- What is known of the state a command answers holds of the state it is seen to answer. -/
theorem exec_spec_next {P : State → Prop} {i : Instr} {s t : State} (hspec : ∃ u, exec i s = .next u ∧ P u)
    (h : exec i s = .next t) : P t := by
  obtain ⟨u, hu, hP⟩ := hspec
  cases hu.symm.trans h
  exact hP

theorem exec_writePos_le {i : Instr} {s t : State} (hready : s.Ready i.size) (h : exec i s = .next t) :
    t.writePos.toNat ≤ s.writePos.toNat + i.outBytes := by
  cases i with
  | rel =>
    cases h
    exact le_rfl
  | endMark => exact (exec_spec_next (exec_endMark hready.1) h).writePos.le
  | sbr => exact (exec_spec_next (exec_sbr hready) h).writePos_le
  | mcp => exact (exec_spec_next (exec_mcp hready) h).writePos_le
  | vcp => exact (exec_spec_next (exec_vcp hready) h).writePos_le
  | lit => exact (exec_spec_next (exec_lit hready) h).writePos_le
  | rlit => exact (exec_spec_next (exec_rlit hready) h).writePos_le
  | fill => exact (exec_spec_next (exec_fill hready) h).writePos_le
  | rrep => exact (exec_spec_next (exec_rrep hready) h).writePos_le
  | rxt => exact (exec_spec_next (exec_rxt hready) h).writePos_le

/-- A step writes at most as many bytes as the longest count of an encoding: only a decoded command writes. -/
theorem busyStep_writePos_le {s t : State} (h : s.Inv) (hb : s.phase = .busy) (ht : busyStep s = .next t) :
    t.writePos.toNat ≤ s.writePos.toNat + 65535 := by
  obtain ⟨-, -, -, hle⟩ := h.busy hb
  rcases busyStep_cases s with ⟨-, e⟩ | ⟨-, -, e⟩ | ⟨-, -, i, rest, hdec, e⟩ | ⟨-, -, -, e⟩ | ⟨-, e⟩ <;> rw [e] at ht
  · cases ht
    exact Nat.le_add_right _ _
  · cases ht
    exact Nat.le_add_right _ _
  · obtain ⟨hsize, -⟩ := decoded_size_le hdec hle
    obtain ⟨-, hwf, -⟩ := encodeOfDecode _ _ _ _ _ hdec
    exact (exec_writePos_le ⟨hsize, h.outReady hb⟩ ht).trans (Nat.add_le_add_left (Instr.outBytes_le hwf) _)
  · cases ht
    exact Nat.le_add_right _ _
  · cases ht

/-! ### The cursors move forward, inside their bounds -/

/-- The cursors and OUT's old bytes, where at least `least` bytes are consumed. -/
theorem State.Inv.cursors {s t : State} {least : Nat} (h : s.Inv) (hb : s.phase = .busy) (hadv : Advances s t least) :
    s.inPos.toNat + least ≤ t.inPos.toNat ∧ s.writePos.toNat ≤ t.writePos.toNat ∧
      t.inPos.toNat ≤ t.inLen.toNat ∧ t.writePos.toNat ≤ t.targetSize.toNat ∧
      ∀ a, a < s.writePos.toNat → t.outByte a = s.outByte a := by
  obtain ⟨-, -, -, hin⟩ := h.busy hb
  obtain ⟨-, hout⟩ := h.outReady hb
  obtain ⟨used, m, byte, ended, hwrote, hleast, hused, hm, -⟩ := hadv
  rw [State.ahead] at hused
  rw [State.room] at hm
  rw [hwrote.inPos, hwrote.writePos, hwrote.inLen, hwrote.targetSize]
  exact ⟨by omega, by omega, by omega, by omega, fun a ha => hwrote.untouched a (.inl ha)⟩

/-- Settles O52: a step that is not one of the two stops at its top advances by a byte at least (`busyStep_next`), every
step stays inside the bounds (`State.Inv.cursors`) and writes no more than a count can say (`busyStep_writePos_le`). -/
theorem cursorProgress : Obligations.CursorProgress := by
  unfold Obligations.CursorProgress
  intro s t h hs ht
  have hbusy : busyStep s = .next t := (step_running hs).symm.trans ht
  have hmost := busyStep_writePos_le h hs.1 hbusy
  obtain ⟨hforward, hwrite, hinside, houtside, hkept⟩ := h.cursors hs.1 (step_advances h hs ht)
  rcases busyStep_next h hs.1 hbusy with hadv | ⟨-, hdone, htop⟩
  · obtain ⟨hstrict, -⟩ := h.cursors hs.1 hadv
    exact ⟨hforward, hwrite, fun _ _ => hstrict, fun _ => hstrict, hinside, houtside, hmost, hkept⟩
  · exact ⟨hforward, hwrite, fun hroom hmore => (htop.elim hroom hmore).elim, fun hp => by simp [hdone] at hp,
      hinside, houtside, hmost, hkept⟩

/-! ### One word of each command -/

/-- Settles O3: each word is a row of R72 or R80, which the decoder reads. -/
theorem specWordsDecode : Obligations.SpecWordsDecode := by
  unfold Obligations.SpecWordsDecode
  exact ⟨(OpcodeRow.rel rfl).decode_eq [], (OpcodeRow.sbr (by decide) (by decide)).decode_eq [],
    (OpcodeRow.lit (by decide) (by decide)).decode_eq [], OpcodeRow.endMark.decode_eq [],
    (OpcodeRow.mcp (by decide) (by decide)).decode_eq [], OpcodeRow.fill.decode_eq [], OpcodeRow.vcp.decode_eq [],
    (OpcodeRow.rlit (by decide) (by decide)).decode_eq [], (OpcodeRow.rrep (by decide)).decode_eq [],
    OpcodeRow.rxt.decode_eq []⟩

/-! ### The host's actions -/

/-- Settles O47: a step takes the first of the host's actions, and an engine turn of a BUSY engine is `busyStep`. -/
theorem hostActionsInOrder : Obligations.HostActionsInOrder := by
  unfold Obligations.HostActionsInOrder
  intro e rest s hhost
  have hstep := step_hostEvent hhost
  refine ⟨hstep, ?_⟩
  rintro rfl hb
  exact hstep.trans (engineStep_busy (s := { s with host := rest }) hb)

end Sys2Proof.Machine
end
